-- ==== Sys2Proof/Word.lean ====
section
/-! DEFINITION. The fixed widths of the codec: word, code unit, group and tail count (00_scope.md R5,
30_encoding.md R70 to R73). -/

namespace Sys2Proof

/-- A Word: 32 bits, no sign (R70). One element of REG, IN_BUF or OUT_BUF. -/
abbrev Word := BitVec 32

/-- A code unit: 16 bits (R72). -/
abbrev CodeUnit := BitVec 16

/-- A group `p`: 15 bits, in [0, 32767] (R71). -/
abbrev Group := BitVec 15

/-- A significant-bit count, 4 bits wide like register TB (R33, R73). -/
abbrev TailCount := BitVec 4

/-- `ceil(a/b)` as R7 defines it. -/
def ceilDiv (a b : Nat) : Nat := (a + b - 1) / b

end Sys2Proof
end

