-- ==== Sys2Proof/Syntax.lean ====
section
/-! DEFINITION. The raw forms the spec encodes, the reasons a raw form is rejected, and Instr: one constructor per
row of spec/opcode_table.json. -/

namespace Sys2Proof

/-- The four functions of the alphabet mapper (R90 to R93). -/
inductive MapFn where
  | tochar
  | fromchar
  | toterm
  | fromterm
  deriving DecidableEq, Repr

/-- The five classes of a code unit (R72). -/
inductive UnitClass where
  | dataA
  | dataB
  | dataC
  | term
  | invalid
  deriving DecidableEq, Repr

/-- What reaches the block, before decoding. -/
inductive Raw where
  /-- The host access tuple `(SPACE, W, INDEX, DATA)` of R79. INDEX has no stated width: a natural number (log 6). -/
  | access (space : BitVec 2) (w : BitVec 1) (index : Nat) (data : Word)
  /-- The engine-step selector of R84: STATE in bits [2:0], the row's condition in bits [5:3] (DESIGN CHOICE, log 5). -/
  | selector (sel : BitVec 8)
  /-- An operand presented to one function of the alphabet mapper (DESIGN CHOICE, log 9). -/
  | mapper (f : MapFn) (arg : CodeUnit)
  /-- A code unit (R72). -/
  | unit (u : CodeUnit)
  deriving DecidableEq, Repr

/-- Why a raw form is no encoding of the spec. -/
inductive DecodeError where
  /-- A selector whose STATE is IDLE, DONE or ERROR, where no engine step is enabled (R84). -/
  | noStepInState
  /-- A selector whose STATE is 6 or 7, which never occurs (R27). -/
  | stateNeverOccurs
  /-- A selector whose condition bits name no row of R84. -/
  | reservedSelector
  /-- An operand of TOCHAR above 32767 (R90). -/
  | groupOutOfRange
  /-- An operand of TOTERM outside [1, 15] (R92). -/
  | countOutOfRange
  deriving DecidableEq, Repr

/-- The instructions: the rows of spec/opcode_table.json, in the table's order. -/
inductive Instr where
  /-- ENCODE: the write of 0x00000001 to CMD (R78, R142). -/
  | encode
  /-- DECODE: the write of 0x00000002 to CMD (R78, R143). -/
  | decode
  /-- REFUSE: the write to CMD of a value that names no command (R78, R144). -/
  | refuse (v : Word)
  | encDataIn
  | encDataStraddle
  | encTerm
  | decTerm
  | decCharBad
  | decPlaceIn
  | decPlaceStraddle
  | decTrim
  | tochar (p : Group)
  | fromchar (c : CodeUnit)
  | toterm (n : TailCount)
  | fromterm (t : CodeUnit)
  /-- UNIT_TERM: the unit 0x2400 + n (R73). -/
  | unitTerm (n : TailCount)
  | unitDataA (u : CodeUnit)
  | unitDataB (u : CodeUnit)
  | unitDataC (u : CodeUnit)
  | unitInvalid (u : CodeUnit)
  | rdReg (index : Nat)
  | wrReg (index : Nat) (data : Word)
  | wrIn (index : Nat) (data : Word)
  | rdIn (index : Nat)
  | rdOut (index : Nat)
  | wrOut (index : Nat) (data : Word)
  /-- ACC_RESERVED: an access to SPACE 0b11, a write when `w` (R79, R151). -/
  | accReserved (w : Bool) (index : Nat) (data : Word)
  deriving DecidableEq, Repr

/-- The "format" column of spec/opcode_table.json. A CMD word is a host access (R79), so the two share one raw form. -/
inductive Format where
  | hostAccess
  | engineStep
  | mapper
  | codeUnit
  deriving DecidableEq, Repr

/-- The format of an instruction's row. -/
def Instr.format : Instr → Format
  | .encode | .decode | .refuse _ => .hostAccess
  | .encDataIn | .encDataStraddle | .encTerm => .engineStep
  | .decTerm | .decCharBad | .decPlaceIn | .decPlaceStraddle | .decTrim => .engineStep
  | .tochar _ | .fromchar _ | .toterm _ | .fromterm _ => .mapper
  | .unitTerm _ | .unitDataA _ | .unitDataB _ | .unitDataC _ | .unitInvalid _ => .codeUnit
  | .rdReg _ | .wrReg _ _ | .wrIn _ _ | .rdIn _ | .rdOut _ | .wrOut _ _ | .accReserved _ _ _ => .hostAccess

/-- The format of a raw form. -/
def Raw.format : Raw → Format
  | .access _ _ _ _ => .hostAccess
  | .selector _ => .engineStep
  | .mapper _ _ => .mapper
  | .unit _ => .codeUnit

end Sys2Proof
end

