-- ==== Sys2Proof/Machine/Alphabet.lean ====
section
/-! DEFINITION. The alphabet mapper, the block's combinational leaf (40_alphabet_mapper.md R90 to R93), and the
classes of code units (30_encoding.md R72, R73). No function here reads or writes state. -/

namespace Sys2Proof

/-- TOCHAR: group to data unit (R90). -/
def tochar (p : Group) : CodeUnit :=
  if p.toNat ≤ 6581 then 0x3400#16 + p.setWidth 16
  else if p.toNat ≤ 27483 then 0x4E00#16 + (p.setWidth 16 - 6582#16)
  else 0xE000#16 + (p.setWidth 16 - 27484#16)

/-- FROMCHAR: data unit to group; `none` is the rule's `fail(c)` (R91). -/
def fromchar (c : CodeUnit) : Option Group :=
  if 0x3400 ≤ c.toNat ∧ c.toNat ≤ 0x4DB5 then some ((c - 0x3400#16).setWidth 15)
  else if 0x4E00 ≤ c.toNat ∧ c.toNat ≤ 0x9FA5 then some ((c - 0x4E00#16 + 6582#16).setWidth 15)
  else if 0xE000 ≤ c.toNat ∧ c.toNat ≤ 0xF4A3 then some ((c - 0xE000#16 + 27484#16).setWidth 15)
  else none

/-- TOTERM: bit count to terminator unit (R92). -/
def toterm (n : TailCount) : CodeUnit := 0x2400#16 + n.setWidth 16

/-- FROMTERM: terminator unit to bit count; `none` is the rule's `fail(t)` (R93). -/
def fromterm (t : CodeUnit) : Option TailCount :=
  if 0x2401 ≤ t.toNat ∧ t.toNat ≤ 0x240F then some ((t - 0x2400#16).setWidth 4) else none

/-- The class of a code unit, from the ranges of R72. -/
def classOf (u : CodeUnit) : UnitClass :=
  if 0x3400 ≤ u.toNat ∧ u.toNat ≤ 0x4DB5 then .dataA
  else if 0x4E00 ≤ u.toNat ∧ u.toNat ≤ 0x9FA5 then .dataB
  else if 0xE000 ≤ u.toNat ∧ u.toNat ≤ 0xF4A3 then .dataC
  else if 0x2401 ≤ u.toNat ∧ u.toNat ≤ 0x240F then .term
  else .invalid

/-- `u` is a data unit: in DATA_A, DATA_B or DATA_C (R72). -/
def isData (u : CodeUnit) : Bool :=
  classOf u = .dataA || classOf u = .dataB || classOf u = .dataC

end Sys2Proof
end

