-- ==== Sys2Proof/Config.lean ====
section
/-! DEFINITION. The implementation parameters of 00_scope.md R5, and the free values: what the spec leaves
unspecified, as constants without a body. -/

namespace Sys2Proof

/-- `EMPTY_TRIM` (R5, R126): what DEC_TRIM does when TB < 15 and no output word exists. -/
inductive EmptyTrim where
  | noop
  | fault
  deriving DecidableEq, Repr

/-- The parameters of one block (R5). CTR_WIDTH is absent: the counters are unbounded naturals, as R5 allows
(DESIGN CHOICE, log 2, safe). The constraint between the capacities is `CapacitiesFit` of Safety.lean. -/
structure Params where
  /-- CAP_IN: entries of IN_BUF, and the largest admitted IN_LEN. -/
  capIn : Nat
  /-- CAP_OUT: entries of OUT_BUF. -/
  capOut : Nat
  emptyTrim : EmptyTrim
  deriving DecidableEq, Repr

/-- FREE VALUE (R60, log 11): what IN_BUF entry `k` holds after the `n`-th reset until a host write stores into it. -/
opaque Config.freeIn (n k : Nat) : Word

/-- FREE VALUE (R61, log 12): what OUT_BUF entry `k` reads as in era `n` while it is outside the result. -/
opaque Config.freeOut (n k : Nat) : Word

/-- FREE VALUE (log 13): what the 32-bit OUT_LEN holds when the count written to it is `n >= 2^32`. -/
opaque Config.freeOutLen (n : Nat) : Word

end Sys2Proof
end

