-- ==== Sys2Proof/Machine/State.lean ====
section
/-! DEFINITION. The machine's state as plain data, its faults and refusals, and the state right after reset
(10_state.md R20 to R38, 70_reset_and_hazards.md R180). -/

namespace Sys2Proof.Machine

open Sys2Proof

/-- STATUS.STATE (R27): the six values, and no other. -/
inductive SeqState where
  | idle
  | encRun
  | decTerm
  | decRun
  | done
  | error
  deriving DecidableEq, Repr

/-- STATUS.CMD_CAUSE (R26, R29). -/
inductive CmdCause where
  | none
  | illegalOp
  | busy
  | length
  deriving DecidableEq, Repr

/-- ERR_INFO.KIND (R32). -/
inductive ErrKind where
  | none
  | empty
  | term
  | data
  deriving DecidableEq, Repr

/-- What the alphabet mapper gives (R90 to R93). -/
inductive MapResult where
  | unit (u : CodeUnit)
  | group (p : Group)
  | count (n : TailCount)
  | fail (c : CodeUnit)
  deriving DecidableEq, Repr

/-- The class of a code unit with the value it carries (the last column of R72's table). -/
inductive UnitReading where
  | dataA (p : Group)
  | dataB (p : Group)
  | dataC (p : Group)
  | term (n : TailCount)
  | invalid
  deriving DecidableEq, Repr

/-- One event of the total order of R57. -/
inductive Event where
  /-- The engine takes the step that is enabled, if one is (R84). -/
  | engine
  /-- Reset (R180). -/
  | reset
  /-- A raw form reaches the block: a host access, an operand for the mapper, a code unit, or a named engine step. -/
  | issue (r : Raw)
  deriving DecidableEq, Repr

/-- IN_BUF or OUT_BUF: the entries written, as (index, 32-bit element), indices strictly rising (R50, log 20).
What an unlisted entry reads as is a free value: `State.inEntry` and `State.outEntry` of Ops.lean. -/
abbrev Memory := List (Nat × Word)

/-- The faults. -/
inductive Fault where
  /-- DEC_TRIM raises it when EMPTY_TRIM = FAULT, TB < 15 and L = 0: the spec's own model fault (R126, R160, log 17). Safe. -/
  | emptyTrim
  /-- An engine step raises it on a read of IN_BUF at an index of CAP_IN or above, where no entry exists (R62).
  It occurs in no state a run reaches (R53, R54; log 16). Safe. -/
  | inBufRange
  /-- An engine step raises it on an access to OUT_BUF at an index of CAP_OUT or above, where no entry exists (R62).
  It occurs in no state a run reaches (R54; log 16). Safe. -/
  | outBufRange
  deriving DecidableEq, Repr

/-- The refusals. -/
inductive Refusal where
  /-- `exec` raises it for an instruction without a meaning. No arm does so: every row has its meaning. Safe. -/
  | notModelled (mnemonic : String)
  /-- `step` raises it for a raw form that is no encoding of the spec. Safe. -/
  | undecodable (why : DecodeError)
  /-- An engine step's meaning raises it in a state where R84 does not select that step: the spec gives the step no
  effect there, and `step` never takes one of itself (log 14). Safe. -/
  | stepNotEnabled
  /-- A meaning raises it for an operand outside its row's range, which the decoder never produces (log 15). Safe. -/
  | illFormed
  deriving DecidableEq, Repr

/-- The whole state of one block, its parameters, and the model's own input and output lines. -/
structure State where
  /-- CAP_IN, CAP_OUT, EMPTY_TRIM (R5): no event writes them (log 1). -/
  params : Params
  /-- STATUS.STATE (R27). -/
  state : SeqState
  /-- STATUS.CMD_ERR (R29). -/
  cmdErr : Bool
  /-- STATUS.CMD_CAUSE (R29). -/
  cmdCause : CmdCause
  /-- IN_LEN (R30). -/
  inLen : Word
  /-- OUT_LEN (R31). -/
  outLen : Word
  /-- ERR_INFO: CP in bits [15:0], KIND in bits [17:16] (R32). -/
  errInfo : Word
  /-- Internal register I (R33). -/
  i : Nat
  /-- Internal register NB (R33). -/
  nb : Nat
  /-- Internal register OC (R33). -/
  oc : Nat
  /-- Internal register TB (R33). -/
  tb : TailCount
  /-- Internal register L (R33). -/
  l : Nat
  /-- IN_BUF: the entries the host has stored since reset (R22, R60). -/
  inBuf : Memory
  /-- OUT_BUF: the entries the engine has written since reset (R23, R161). -/
  outBuf : Memory
  /-- The model's own: the events to come, in the order in which they fall (R57, log 3). -/
  inputs : List Event
  /-- The model's own: the DATA the last host read returned (R79, log 8). -/
  returned : Option Word
  /-- The model's own: the mapper's output for the last operand presented to it alone (log 9). -/
  mapOut : Option MapResult
  /-- The model's own: the reading of the last code unit presented alone (log 10). -/
  unitOut : Option UnitReading
  /-- The model's own: resets so far, by which IN_BUF's free values are drawn (R60, log 11). -/
  resets : Nat
  /-- The model's own: the era by which OUT_BUF's free values are drawn (R61, log 12). -/
  outEra : Nat
  deriving DecidableEq, Repr

/-- The parameters State.reset carries: the capacities 95_test_vectors.md assumes for its programs, and the spec's
default EMPTY_TRIM (DESIGN CHOICE, log 1: R5 fixes no value for the capacities). -/
def paramsAtReset : Params := { capIn := 33, capOut := 72, emptyTrim := .noop }

/-- The machine right after reset (R180). The buffers list nothing: their contents are unspecified. -/
def State.reset : State where
  params := paramsAtReset
  state := .idle
  cmdErr := false
  cmdCause := .none
  inLen := 0#32
  outLen := 0#32
  errInfo := 0#32
  i := 0
  nb := 0
  oc := 0
  tb := 0#4
  l := 0
  inBuf := []
  outBuf := []
  inputs := []
  returned := none
  mapOut := none
  unitOut := none
  resets := 0
  outEra := 0

end Sys2Proof.Machine
end

