-- ==== Sys2Proof/Machine/Flags.lean ====
section
/-! DEFINITION. Every status and error field the spec gives: BUSY, the codes of STATE, CMD_CAUSE and KIND, and the
words STATUS and ERR_INFO (10_state.md R26 to R32, R38). -/

namespace Sys2Proof.Machine

open Sys2Proof

/-- BUSY (R28). -/
def State.busy (s : State) : Bool :=
  match s.state with
  | .encRun | .decTerm | .decRun => true
  | .idle | .done | .error => false

/-- The three bits of STATUS.STATE (R27). -/
def SeqState.code : SeqState → BitVec 3
  | .idle => 0#3
  | .encRun => 1#3
  | .decTerm => 2#3
  | .decRun => 3#3
  | .done => 4#3
  | .error => 5#3

/-- The two bits of STATUS.CMD_CAUSE (R26). -/
def CmdCause.code : CmdCause → BitVec 2
  | .none => 0#2
  | .illegalOp => 1#2
  | .busy => 2#2
  | .length => 3#2

/-- The two bits of ERR_INFO.KIND (R32). -/
def ErrKind.code : ErrKind → BitVec 2
  | .none => 0#2
  | .empty => 1#2
  | .term => 2#2
  | .data => 3#2

/-- The STATUS word: `STATE | BUSY << 3 | CMD_ERR << 4 | CMD_CAUSE << 5` (R26, R145). -/
def State.statusWord (s : State) : Word :=
  s.state.code.setWidth 32 ||| ((BitVec.ofBool s.busy).setWidth 32 <<< 3)
    ||| ((BitVec.ofBool s.cmdErr).setWidth 32 <<< 4) ||| (s.cmdCause.code.setWidth 32 <<< 5)

/-- The ERR_INFO word of an error: `zext_32(cp) | (kind << 16)` (R32, R161). -/
def errWord (kind : ErrKind) (cp : CodeUnit) : Word :=
  cp.setWidth 32 ||| (kind.code.setWidth 32 <<< 16)

/-- ERR_INFO.CP (R32). -/
def State.errCp (s : State) : CodeUnit := s.errInfo.setWidth 16

/-- ERR_INFO.KIND, as its two bits (R32). -/
def State.errKind (s : State) : BitVec 2 := (s.errInfo >>> 16).setWidth 2

end Sys2Proof.Machine
end

