-- ==== Sys2Proof/Machine/Ops.lean ====
section
/-! DEFINITION. The named operations over the buffers and registers: InRead, W, Unit, OutRead, OutWrite and EXTEND
(00_scope.md R8, 20_memory.md R52 to R56, 42_decoder.md R122), raising InvalidEncoding (60_exceptions.md R161), the
commands' effects (43_host_commands.md R140 to R144), and reset (70_reset_and_hazards.md R180). -/

namespace Sys2Proof.Machine

open Sys2Proof

/-! ## The buffers as data -/

/-- The value listed for index `k`, if one is. -/
def Memory.find : Memory → Nat → Option Word
  | [], _ => none
  | (a, v) :: m, k => if k = a then some v else Memory.find m k

/-- Store `v` at index `k`, keeping the indices strictly rising. -/
def Memory.put : Memory → Nat → Word → Memory
  | [], k, v => [(k, v)]
  | (a, x) :: m, k, v =>
    if k < a then (k, v) :: (a, x) :: m
    else if k = a then (k, v) :: m
    else (a, x) :: Memory.put m k v

/-- The canonical form: indices strictly rising, each below the buffer's capacity. Being listed is information of its
own ("entries that no host write has stored since reset", R60), so no value is left out of the list (log 11). -/
def Memory.wf (cap : Nat) (m : Memory) : Bool :=
  decide (m.Pairwise fun a b => a.1 < b.1) && m.all fun a => decide (a.1 < cap)

/-- What IN_BUF entry `k` holds: what the host stored, or the free value it has held since reset (R60, log 11). -/
def State.inEntry (s : State) (k : Nat) : Word := (s.inBuf.find k).getD (Config.freeIn s.resets k)

/-- What OUT_BUF entry `k` holds: what the engine wrote, or a free value (R61, log 12). -/
def State.outEntry (s : State) (k : Nat) : Word := (s.outBuf.find k).getD (Config.freeOut s.outEra k)

/-! ## The engine's reads and writes -/

/-- `InRead(k)` (R8). -/
def State.inRead (s : State) (k : Nat) : Except Fault Word :=
  if k < s.params.capIn then .ok (s.inEntry k) else .error .inBufRange

/-- `W(k)`: the zero-padded word read (R53). -/
def State.wordRead (s : State) (k : Nat) : Except Fault Word :=
  if k < s.inLen.toNat then s.inRead k else .ok 0#32

/-- Bits [15:0] of IN_BUF entry `k` (R52). -/
def State.unitAt (s : State) (k : Nat) : CodeUnit := (s.inEntry k).setWidth 16

/-- `Unit(k)` (R8, R52). -/
def State.unitRead (s : State) (k : Nat) : Except Fault CodeUnit :=
  (s.inRead k).map fun w => w.setWidth 16

/-- `OutRead(k)` (R8). -/
def State.outRead (s : State) (k : Nat) : Except Fault Word :=
  if k < s.params.capOut then .ok (s.outEntry k) else .error .outBufRange

/-- `OutWrite(k, v)` (R8, R54). -/
def State.outWrite (s : State) (k : Nat) (v : Word) : Except Fault State :=
  if k < s.params.capOut then .ok { s with outBuf := s.outBuf.put k v } else .error .outBufRange

/-- `OutWrite(k, OutRead(k) | v)` (R124, R125). -/
def State.outOr (s : State) (k : Nat) (v : Word) : Except Fault State := do
  let old ← s.outRead k
  s.outWrite k (old ||| v)

/-- `n` rounds of EXTEND's loop: `OutWrite(L, 0)`, then `L <- L + 1` (R122). -/
def State.extendBy (s : State) : Nat → Except Fault State
  | 0 => .ok s
  | n + 1 => do
    let t ← s.outWrite s.l 0#32
    State.extendBy { t with l := t.l + 1 } n

/-- `EXTEND(j)`: make `out` cover index `j` with entries that start at 0 (R122). -/
def State.extend (s : State) (j : Nat) : Except Fault State := s.extendBy (j + 1 - s.l)

/-- The count a completion writes to the 32-bit OUT_LEN (R31). The spec states no value for a count of 2^32 or more:
a free value (DESIGN CHOICE, log 13, safe). -/
def lenWord (n : Nat) : Word := if n < 2 ^ 32 then BitVec.ofNat 32 n else Config.freeOutLen n

/-- The outcome of a step's pseudocode. -/
def settle : Except Fault State → Host.Outcome State Fault Refusal
  | .ok s => .next s
  | .error f => .fault f

/-! ## Error entry -/

/-- `raise InvalidEncoding(kind, cp)` (R161): the operation ends in ERROR with no result. I, L, TB and OUT_BUF keep
their values; the entries written are outside the result from here on, so a new era begins for reads of them. -/
def State.raise (s : State) (kind : ErrKind) (cp : CodeUnit) : State :=
  { s with errInfo := errWord kind cp, outLen := 0#32, state := .error, outEra := s.outEra + 1 }

/-! ## Commands -/

/-- REFUSE(cause) (R144). -/
def State.refuse (s : State) (cause : CmdCause) : State := { s with cmdErr := true, cmdCause := cause }

/-- What every accepted command does first (R142, R143): the refusal and the last result are cleared. What OUT_BUF
holds is outside any result from here on, so a new era begins for reads of it (R61). -/
def State.accept (s : State) : State :=
  { s with cmdErr := false, cmdCause := .none, outLen := 0#32, errInfo := 0#32, outEra := s.outEra + 1 }

/-- START_ENCODE (R142). -/
def State.startEncode (s : State) : State :=
  { s.accept with nb := 32 * s.inLen.toNat, i := 0, oc := 0, state := .encRun }

/-- START_DECODE (R143). -/
def State.startDecode (s : State) : State := { s.accept with state := .decTerm }

/-- A host write of `v` to CMD: the first condition that holds decides (R140, log 7). -/
def State.cmdWrite (s : State) (v : Word) : State :=
  if s.busy then s.refuse .busy
  else if v = 0x00000001#32 then
    if s.params.capIn < s.inLen.toNat then s.refuse .length else s.startEncode
  else if v = 0x00000002#32 then
    if s.params.capIn < s.inLen.toNat then s.refuse .length else s.startDecode
  else s.refuse .illegalOp

/-! ## Host accesses -/

/-- The value a host read of REG index `j` returns (R145). -/
def State.regValue (s : State) (j : Nat) : Word :=
  match j with
  | 1 => s.statusWord
  | 2 => s.inLen
  | 3 => s.outLen
  | 4 => s.errInfo
  | _ => 0#32

/-- How many OUT_BUF entries the running operation has written, or the last one's result holds (R23, R33, R186).
Entries from here on are left over from earlier operations (R61). -/
def State.outLive (s : State) : Nat :=
  match s.state with
  | .encRun => s.oc
  | .decTerm => 0
  | .decRun => s.l
  | .idle | .done | .error => s.outLen.toNat

/-- The value a host read of IN_BUF index `k` returns (R56, R148). -/
def State.inHostValue (s : State) (k : Nat) : Word := if k < s.params.capIn then s.inEntry k else 0#32

/-- The value a host read of OUT_BUF index `k` returns (R56, R149). An entry outside the result, and outside what the
running operation has written, reads as any value: a free value, the same until the era ends (R55, R61, log 12). -/
def State.outHostValue (s : State) (k : Nat) : Word :=
  if k < s.params.capOut then
    if k < s.outLive then s.outEntry k else Config.freeOut s.outEra k
  else 0#32

/-- A host read that returns `v` (R79). It changes no architectural state (R55, R145). -/
def State.hostReturn (s : State) (v : Word) : State := { s with returned := some v }

/-- A host write of `v` to REG index `j` (R140, R146). -/
def State.regWrite (s : State) (j : Nat) (v : Word) : State :=
  match j with
  | 0 => s.cmdWrite v
  | 2 => if s.busy then s else { s with inLen := v }
  | _ => s

/-- A host write of `v` to IN_BUF index `k` (R147). -/
def State.inHostWrite (s : State) (k : Nat) (v : Word) : State :=
  if k < s.params.capIn ∧ s.busy = false then { s with inBuf := s.inBuf.put k v } else s

/-! ## Reset -/

/-- The reset event (R180, R181): every register as `State.reset` has it, both buffers unspecified again. The
parameters are the block's own and stay; the events still to come stay (log 18). -/
def State.afterReset (s : State) : State :=
  { State.reset with
    params := s.params
    inputs := s.inputs
    resets := s.resets + 1
    outEra := s.outEra + 1 }

end Sys2Proof.Machine
end

