-- ==== Sys2Proof/Machine/Access.lean ====
section
/-! DEFINITION. The host's register and buffer accesses (43_host_commands.md R145 to R151). -/

namespace Sys2Proof.Machine

open Sys2Proof

/-- RD_REG (R145). -/
def execRdReg (index : Nat) (s : State) : Host.Outcome State Fault Refusal :=
  .next (s.hostReturn (s.regValue index))

/-- WR_REG (R146); at index 0 a CMD write (R140). -/
def execWrReg (index : Nat) (data : Word) (s : State) : Host.Outcome State Fault Refusal :=
  .next (s.regWrite index data)

/-- WR_IN (R147). -/
def execWrIn (index : Nat) (data : Word) (s : State) : Host.Outcome State Fault Refusal :=
  .next (s.inHostWrite index data)

/-- RD_IN (R148). -/
def execRdIn (index : Nat) (s : State) : Host.Outcome State Fault Refusal :=
  .next (s.hostReturn (s.inHostValue index))

/-- RD_OUT (R149). -/
def execRdOut (index : Nat) (s : State) : Host.Outcome State Fault Refusal :=
  .next (s.hostReturn (s.outHostValue index))

/-- WR_OUT: ignored at every index and in every STATE (R150). -/
def execWrOut (_index : Nat) (_data : Word) (s : State) : Host.Outcome State Fault Refusal := .next s

/-- ACC_RESERVED: a read returns 0, a write is ignored (R151). -/
def execAccReserved (w : Bool) (_index : Nat) (_data : Word) (s : State) : Host.Outcome State Fault Refusal :=
  if w then .next s else .next (s.hostReturn 0#32)

end Sys2Proof.Machine
end

