-- ==== Sys2Proof/Machine/Commands.lean ====
section
/-! DEFINITION. The CMD words (43_host_commands.md R140 to R144). Each is a host write to CMD and goes through R140's
order: BUSY, ILLEGAL_OP, LENGTH. -/

namespace Sys2Proof.Machine

open Sys2Proof

/-- ENCODE: the host writes 0x00000001 to CMD (R140, R142). -/
def execEncode (s : State) : Host.Outcome State Fault Refusal := .next (s.cmdWrite 0x00000001#32)

/-- DECODE: the host writes 0x00000002 to CMD (R140, R143). -/
def execDecode (s : State) : Host.Outcome State Fault Refusal := .next (s.cmdWrite 0x00000002#32)

/-- REFUSE: the host writes to CMD a value that names no command (R140, R144). -/
def execRefuse (v : Word) (s : State) : Host.Outcome State Fault Refusal := .next (s.cmdWrite v)

end Sys2Proof.Machine
end

