-- ==== Sys2Proof/WellFormed.lean ====
section
/-! DEFINITION. The checks on an instruction's operands: each row's "match" in spec/opcode_table.json. -/

namespace Sys2Proof

/-- `i` is one row's instruction with operands in that row's range.

`refuse v` excludes the two command words, which are ENCODE's and DECODE's (R78).
`wrReg 0 v` is excluded because a write to REG index 0 is a CMD write and has the CMD rows' spelling (R140);
its meaning is still R140's. A reserved read carries no DATA (R79). -/
def Instr.wellFormed : Instr → Bool
  | .encode => true
  | .decode => true
  | .refuse v => v ≠ 0x00000001#32 && v ≠ 0x00000002#32
  | .encDataIn => true
  | .encDataStraddle => true
  | .encTerm => true
  | .decTerm => true
  | .decCharBad => true
  | .decPlaceIn => true
  | .decPlaceStraddle => true
  | .decTrim => true
  | .tochar _ => true
  | .fromchar _ => true
  | .toterm n => n ≠ 0#4
  | .fromterm _ => true
  | .unitTerm n => n ≠ 0#4
  | .unitDataA u => classOf u = .dataA
  | .unitDataB u => classOf u = .dataB
  | .unitDataC u => classOf u = .dataC
  | .unitInvalid u => classOf u = .invalid
  | .rdReg _ => true
  | .wrReg index _ => index ≠ 0
  | .wrIn _ _ => true
  | .rdIn _ => true
  | .rdOut _ => true
  | .wrOut _ _ => true
  | .accReserved w _ data => w || data = 0#32

end Sys2Proof
end

