-- ==== Sys2Proof/Decode.lean ====
section
/-! DEFINITION. Decoding, total on every raw form and rejecting by name, and the encoder written from the same
tables: CMD words R78, host access tuples R79, engine-step selection R84, code units R72 and R73. -/

namespace Sys2Proof

/-- The selectors of the eight engine steps: STATE in bits [2:0] as R27 encodes it, and in bits [5:3] the row's
condition of R84: bit 3 the group straddles (offset above 17), bit 4 the operation's input is used up, bit 5 the
unit is no data unit (DESIGN CHOICE, log 5). -/
abbrev selEncDataIn : BitVec 8 := 0x01#8
abbrev selEncDataStraddle : BitVec 8 := 0x09#8
abbrev selEncTerm : BitVec 8 := 0x11#8
abbrev selDecTerm : BitVec 8 := 0x02#8
abbrev selDecPlaceIn : BitVec 8 := 0x03#8
abbrev selDecPlaceStraddle : BitVec 8 := 0x0B#8
abbrev selDecTrim : BitVec 8 := 0x13#8
abbrev selDecCharBad : BitVec 8 := 0x23#8

/-- The engine step a selector selects (R84), or why it selects none. -/
def decodeSelector (b : BitVec 8) : Except DecodeError Instr :=
  if b = selEncDataIn then .ok .encDataIn
  else if b = selEncDataStraddle then .ok .encDataStraddle
  else if b = selEncTerm then .ok .encTerm
  else if b = selDecTerm then .ok .decTerm
  else if b = selDecPlaceIn then .ok .decPlaceIn
  else if b = selDecPlaceStraddle then .ok .decPlaceStraddle
  else if b = selDecTrim then .ok .decTrim
  else if b = selDecCharBad then .ok .decCharBad
  else if b.setWidth 3 = 0#3 ∨ b.setWidth 3 = 4#3 ∨ b.setWidth 3 = 5#3 then .error .noStepInState
  else if b.setWidth 3 = 6#3 ∨ b.setWidth 3 = 7#3 then .error .stateNeverOccurs
  else .error .reservedSelector

/-- A value written to CMD, by the exact 32-bit match of R78. -/
def decodeCmd (v : Word) : Instr :=
  if v = 0x00000001#32 then .encode else if v = 0x00000002#32 then .decode else .refuse v

/-- A host access tuple (R79). The DATA of a read is no operand. -/
def decodeAccess (space : BitVec 2) (w : BitVec 1) (index : Nat) (data : Word) : Instr :=
  if space = 0b00#2 then
    if w = 1#1 then (if index = 0 then decodeCmd data else .wrReg index data) else .rdReg index
  else if space = 0b01#2 then
    if w = 1#1 then .wrIn index data else .rdIn index
  else if space = 0b10#2 then
    if w = 1#1 then .wrOut index data else .rdOut index
  else
    if w = 1#1 then .accReserved true index data else .accReserved false index 0#32

/-- An operand presented to one function of the mapper, within the contract of R90 to R93. -/
def decodeMapper (f : MapFn) (arg : CodeUnit) : Except DecodeError Instr :=
  match f with
  | .tochar => if arg.toNat ≤ 32767 then .ok (.tochar (arg.setWidth 15)) else .error .groupOutOfRange
  | .fromchar => .ok (.fromchar arg)
  | .toterm =>
    if 1 ≤ arg.toNat ∧ arg.toNat ≤ 15 then .ok (.toterm (arg.setWidth 4)) else .error .countOutOfRange
  | .fromterm => .ok (.fromterm arg)

/-- A code unit, by its class (R72, R73). -/
def decodeUnit (u : CodeUnit) : Instr :=
  match classOf u with
  | .dataA => .unitDataA u
  | .dataB => .unitDataB u
  | .dataC => .unitDataC u
  | .term => .unitTerm (u.setWidth 4)
  | .invalid => .unitInvalid u

/-- The decoder: total, rejecting by name. -/
def decode : Raw → Except DecodeError Instr
  | .access space w index data => .ok (decodeAccess space w index data)
  | .selector sel => decodeSelector sel
  | .mapper f arg => decodeMapper f arg
  | .unit u => .ok (decodeUnit u)

/-- The encoder. -/
def encode : Instr → Raw
  | .encode => .access 0b00#2 1#1 0 0x00000001#32
  | .decode => .access 0b00#2 1#1 0 0x00000002#32
  | .refuse v => .access 0b00#2 1#1 0 v
  | .encDataIn => .selector selEncDataIn
  | .encDataStraddle => .selector selEncDataStraddle
  | .encTerm => .selector selEncTerm
  | .decTerm => .selector selDecTerm
  | .decCharBad => .selector selDecCharBad
  | .decPlaceIn => .selector selDecPlaceIn
  | .decPlaceStraddle => .selector selDecPlaceStraddle
  | .decTrim => .selector selDecTrim
  | .tochar p => .mapper .tochar (p.setWidth 16)
  | .fromchar c => .mapper .fromchar c
  | .toterm n => .mapper .toterm (n.setWidth 16)
  | .fromterm t => .mapper .fromterm t
  | .unitTerm n => .unit (toterm n)
  | .unitDataA u => .unit u
  | .unitDataB u => .unit u
  | .unitDataC u => .unit u
  | .unitInvalid u => .unit u
  | .rdReg index => .access 0b00#2 0#1 index 0#32
  | .wrReg index data => .access 0b00#2 1#1 index data
  | .wrIn index data => .access 0b01#2 1#1 index data
  | .rdIn index => .access 0b01#2 0#1 index 0#32
  | .rdOut index => .access 0b10#2 0#1 index 0#32
  | .wrOut index data => .access 0b10#2 1#1 index data
  | .accReserved w index data => .access 0b11#2 (if w then 1#1 else 0#1) index data

/-- The raw form of a table word, by the width the table gives its row: 8 bits an engine-step selector (the table's
three bits of STATE and the condition bits above them), 16 a code unit, 32 a CMD word. The spec gives the host
access tuple and the mapper's operand no bit layout ("How a platform bus maps onto this tuple is outside the block",
R79), so no other width holds an instruction (log 6). -/
def rawOfTable (nbits w : Nat) : Option Raw :=
  match nbits with
  | 8 => some (.selector (BitVec.ofNat 8 w))
  | 16 => some (.unit (BitVec.ofNat 16 w))
  | 32 => some (.access 0b00#2 1#1 0 (BitVec.ofNat 32 w))
  | _ => none

/-- The instruction the decoder reads from a table word; `none` where it refuses. -/
def decodeTableWord (nbits w : Nat) : Option Instr :=
  match rawOfTable nbits w with
  | some r =>
    match decode r with
    | .ok i => some i
    | .error _ => none
  | none => none

end Sys2Proof
end

