-- ==== Sys2Proof/Machine/Operands.lean ====
section
/-! DEFINITION. Operand assembly: where a group sits in the words, how it is cut from them and how it is placed back
(30_encoding.md R76, 41_encoder.md R101 to R104, 42_decoder.md R121, R124, R125). A shift left or a change of width
of a BitVec drops the bits that the rule's mask drops. -/

namespace Sys2Proof.Machine

open Sys2Proof

/-- wordIndex of a bitstream position (R101, R121). -/
def wordIndex (pos : Nat) : Nat := pos / 32

/-- bitOffset of a bitstream position (R101, R121). -/
def bitOffset (pos : Nat) : Nat := pos % 32

/-- The bitstream position of the decoder's data unit `i` (R121). -/
def unitPos (i : Nat) : Nat := 15 * i

/-- ENC_DATA_IN's group: `(w >> (17 - o)) & MASK15` (R103). -/
def groupWithin (w : Word) (o : Nat) : Group := (w >>> (17 - o)).setWidth 15

/-- ENC_DATA_STRADDLE's `hi`: `(w << (o - 17)) & MASK15` (R104). -/
def groupHigh (w : Word) (o : Nat) : Group := (w <<< (o - 17)).setWidth 15

/-- ENC_DATA_STRADDLE's `lo`: `w >> (49 - o)`, which is below `2^(o - 17)` (R104). -/
def groupLow (w : Word) (o : Nat) : Group := (w >>> (49 - o)).setWidth 15

/-- DEC_PLACE_IN's contribution to `out[wi]`: `p << (17 - o)` (R124). -/
def placeWithin (p : Group) (o : Nat) : Word := p.setWidth 32 <<< (17 - o)

/-- DEC_PLACE_STRADDLE's contribution to `out[wi]`: `p >> (o - 17)` (R125). -/
def placeHigh (p : Group) (o : Nat) : Word := p.setWidth 32 >>> (o - 17)

/-- DEC_PLACE_STRADDLE's contribution to `out[wi + 1]`: `(p << (49 - o)) & MASK32` (R125). -/
def placeLow (p : Group) (o : Nat) : Word := p.setWidth 32 <<< (49 - o)

end Sys2Proof.Machine
end

