-- ==== Sys2Proof/Machine/Select.lean ====
section
/-! DEFINITION. Which engine step is enabled: the table of 30_encoding.md R84. -/

namespace Sys2Proof.Machine

open Sys2Proof

/-- The selector of the state: STATE, and the condition R84 tests in it. In IDLE, DONE and ERROR, and in a DEC_RUN
state with `I > IN_LEN - 1`, which no run reaches, it names no step (log 21). -/
def State.selector (s : State) : BitVec 8 :=
  match s.state with
  | .idle => 0x00#8
  | .encRun =>
    if s.nb ≤ s.i then selEncTerm
    else if bitOffset s.i ≤ 17 then selEncDataIn
    else selEncDataStraddle
  | .decTerm => selDecTerm
  | .decRun =>
    if s.i + 1 < s.inLen.toNat then
      if isData (s.unitAt s.i) then
        if bitOffset (unitPos s.i) ≤ 17 then selDecPlaceIn else selDecPlaceStraddle
      else selDecCharBad
    else if s.i + 1 = s.inLen.toNat then selDecTrim
    else 0x3B#8
  | .done => 0x04#8
  | .error => 0x05#8

/-- The engine step that is enabled, if one is (R84). -/
def State.enabledStep (s : State) : Option Instr :=
  match decodeSelector s.selector with
  | .ok i => some i
  | .error _ => none

/-- Run a step's pseudocode where R84 selects the step `sel`; refuse it by name elsewhere (log 14). -/
def whenSelected (sel : BitVec 8) (s : State) (body : Except Fault State) : Host.Outcome State Fault Refusal :=
  if s.selector = sel then settle body else .refused .stepNotEnabled

end Sys2Proof.Machine
end

