-- ==== Sys2Proof/Machine/Decoder.lean ====
section
/-! DEFINITION. The decoder's steps (42_decoder.md R120 to R126). -/

namespace Sys2Proof.Machine

open Sys2Proof

/-- DEC_TERM (R120). -/
def execDecTerm (s : State) : Host.Outcome State Fault Refusal :=
  whenSelected selDecTerm s do
    if s.inLen.toNat = 0 then pure (s.raise .empty 0#16)
    else
      let t ← s.unitRead (s.inLen.toNat - 1)
      match fromterm t with
      | none => pure (s.raise .term t)
      | some n => pure { s with tb := n, i := 0, l := 0, state := .decRun }

/-- DEC_CHAR_BAD (R123). -/
def execDecCharBad (s : State) : Host.Outcome State Fault Refusal :=
  whenSelected selDecCharBad s do
    let c ← s.unitRead s.i
    pure (s.raise .data c)

/-- The group FROMCHAR gives for data unit I (R91). R84 selects the placements only where it is a data unit. -/
def State.groupRead (s : State) : Except Fault Group := do
  let c ← s.unitRead s.i
  pure ((fromchar c).getD 0#15)

/-- DEC_PLACE_IN (R124). -/
def execDecPlaceIn (s : State) : Host.Outcome State Fault Refusal :=
  whenSelected selDecPlaceIn s do
    let p ← s.groupRead
    let wi := wordIndex (unitPos s.i)
    let o := bitOffset (unitPos s.i)
    let t ← s.extend wi
    let t ← t.outOr wi (placeWithin p o)
    pure { t with i := t.i + 1 }

/-- DEC_PLACE_STRADDLE (R125). -/
def execDecPlaceStraddle (s : State) : Host.Outcome State Fault Refusal :=
  whenSelected selDecPlaceStraddle s do
    let p ← s.groupRead
    let wi := wordIndex (unitPos s.i)
    let o := bitOffset (unitPos s.i)
    let t ← s.extend (wi + 1)
    let t ← t.outOr wi (placeHigh p o)
    let t ← t.outOr (wi + 1) (placeLow p o)
    pure { t with i := t.i + 1 }

/-- The length DEC_TRIM leaves (R126): the last word dropped where TB < 15, and EMPTY_TRIM where there is none. -/
def State.trimmedLength (s : State) : Except Fault Nat :=
  if s.tb.toNat < 15 then
    if 0 < s.l then .ok (s.l - 1)
    else
      match s.params.emptyTrim with
      | .noop => .ok s.l
      | .fault => .error .emptyTrim
  else .ok s.l

/-- DEC_TRIM (R126). The dropped OUT_BUF entry is not cleared; it is outside the result from here on, so a new era
begins for reads of such entries (R61, log 12). -/
def execDecTrim (s : State) : Host.Outcome State Fault Refusal :=
  whenSelected selDecTrim s do
    let n ← s.trimmedLength
    pure { s with l := n, outLen := lenWord n, state := .done, outEra := s.outEra + 1 }

end Sys2Proof.Machine
end

