-- ==== Sys2Proof/Machine/Encoder.lean ====
section
/-! DEFINITION. The encoder's steps (41_encoder.md R103 to R105). -/

namespace Sys2Proof.Machine

open Sys2Proof

/-- ENC_DATA_IN (R103). -/
def execEncDataIn (s : State) : Host.Outcome State Fault Refusal :=
  whenSelected selEncDataIn s do
    let w ← s.inRead (wordIndex s.i)
    let p := groupWithin w (bitOffset s.i)
    let t ← s.outWrite s.oc ((tochar p).setWidth 32)
    pure { t with oc := t.oc + 1, i := t.i + 15 }

/-- ENC_DATA_STRADDLE (R104). -/
def execEncDataStraddle (s : State) : Host.Outcome State Fault Refusal :=
  whenSelected selEncDataStraddle s do
    let w ← s.inRead (wordIndex s.i)
    let next ← s.wordRead (wordIndex s.i + 1)
    let p := groupHigh w (bitOffset s.i) ||| groupLow next (bitOffset s.i)
    let t ← s.outWrite s.oc ((tochar p).setWidth 32)
    pure { t with oc := t.oc + 1, i := t.i + 15 }

/-- ENC_TERM (R105). The overshoot is `I - NB`, in [0, 14] in every run (R108). -/
def execEncTerm (s : State) : Host.Outcome State Fault Refusal :=
  whenSelected selEncTerm s do
    let t ← s.outWrite s.oc ((toterm (BitVec.ofNat 4 (15 - (s.i - s.nb)))).setWidth 32)
    pure { t with oc := t.oc + 1, outLen := lenWord (t.oc + 1), state := .done }

end Sys2Proof.Machine
end

