-- ==== Sys2Proof/Machine/Mapper.lean ====
section
/-! DEFINITION. The alphabet mapper's four functions as rows of the table (40_alphabet_mapper.md R90 to R93). They hold
no state: each only sets the model's output line `mapOut` (DESIGN CHOICE, log 9). The engine steps evaluate the same
functions. -/

namespace Sys2Proof.Machine

open Sys2Proof

/-- TOCHAR (R90). -/
def execTochar (p : Group) (s : State) : Host.Outcome State Fault Refusal :=
  .next { s with mapOut := some (.unit (tochar p)) }

/-- FROMCHAR (R91): the group, or `fail(c)` carrying the unit. -/
def execFromchar (c : CodeUnit) (s : State) : Host.Outcome State Fault Refusal :=
  match fromchar c with
  | some p => .next { s with mapOut := some (.group p) }
  | none => .next { s with mapOut := some (.fail c) }

/-- TOTERM (R92), for a count in [1, 15]. -/
def execToterm (n : TailCount) (s : State) : Host.Outcome State Fault Refusal :=
  if n = 0#4 then .refused .illFormed else .next { s with mapOut := some (.unit (toterm n)) }

/-- FROMTERM (R93): the count, or `fail(t)` carrying the unit. -/
def execFromterm (t : CodeUnit) (s : State) : Host.Outcome State Fault Refusal :=
  match fromterm t with
  | some n => .next { s with mapOut := some (.count n) }
  | none => .next { s with mapOut := some (.fail t) }

end Sys2Proof.Machine
end

