-- ==== Sys2Proof/Machine/Units.lean ====
section
/-! DEFINITION. The code-unit classes as rows of the table (30_encoding.md R72, R73): a unit presented alone is read
as its class and the value it carries, on the model's output line `unitOut` (DESIGN CHOICE, log 10). What a unit does at
a position of a string is the decoder's steps (42_decoder.md R120, R123 to R125). -/

namespace Sys2Proof.Machine

open Sys2Proof

/-- UNIT_TERM: the unit 0x2400 + n carries n (R73). -/
def execUnitTerm (n : TailCount) (s : State) : Host.Outcome State Fault Refusal :=
  if n = 0#4 then .refused .illFormed else .next { s with unitOut := some (.term n) }

/-- UNIT_DATA_A carries group `unit - 0x3400` (R72). -/
def execUnitDataA (u : CodeUnit) (s : State) : Host.Outcome State Fault Refusal :=
  if classOf u = .dataA then .next { s with unitOut := some (.dataA ((u - 0x3400#16).setWidth 15)) }
  else .refused .illFormed

/-- UNIT_DATA_B carries group `unit - 0x4E00 + 6582` (R72). -/
def execUnitDataB (u : CodeUnit) (s : State) : Host.Outcome State Fault Refusal :=
  if classOf u = .dataB then .next { s with unitOut := some (.dataB ((u - 0x4E00#16 + 6582#16).setWidth 15)) }
  else .refused .illFormed

/-- UNIT_DATA_C carries group `unit - 0xE000 + 27484` (R72). -/
def execUnitDataC (u : CodeUnit) (s : State) : Host.Outcome State Fault Refusal :=
  if classOf u = .dataC then .next { s with unitOut := some (.dataC ((u - 0xE000#16 + 27484#16).setWidth 15)) }
  else .refused .illFormed

/-- UNIT_INVALID carries nothing (R72). -/
def execUnitInvalid (u : CodeUnit) (s : State) : Host.Outcome State Fault Refusal :=
  if classOf u = .invalid then .next { s with unitOut := some .invalid } else .refused .illFormed

end Sys2Proof.Machine
end

