-- ==== Sys2Proof/Machine/Dispatch.lean ====
section
/-! DEFINITION. One arm per constructor of Instr, each a direct call of that instruction's meaning. -/

namespace Sys2Proof.Machine

open Sys2Proof

def exec (i : Instr) (s : State) : Host.Outcome State Fault Refusal :=
  match i with
  -- CMD words
  | .encode => Sys2Proof.Machine.execEncode s
  | .decode => Sys2Proof.Machine.execDecode s
  | .refuse v => Sys2Proof.Machine.execRefuse v s
  -- engine steps
  | .encDataIn => Sys2Proof.Machine.execEncDataIn s
  | .encDataStraddle => Sys2Proof.Machine.execEncDataStraddle s
  | .encTerm => Sys2Proof.Machine.execEncTerm s
  | .decTerm => Sys2Proof.Machine.execDecTerm s
  | .decCharBad => Sys2Proof.Machine.execDecCharBad s
  | .decPlaceIn => Sys2Proof.Machine.execDecPlaceIn s
  | .decPlaceStraddle => Sys2Proof.Machine.execDecPlaceStraddle s
  | .decTrim => Sys2Proof.Machine.execDecTrim s
  -- the alphabet mapper
  | .tochar p => Sys2Proof.Machine.execTochar p s
  | .fromchar c => Sys2Proof.Machine.execFromchar c s
  | .toterm n => Sys2Proof.Machine.execToterm n s
  | .fromterm t => Sys2Proof.Machine.execFromterm t s
  -- code units
  | .unitTerm n => Sys2Proof.Machine.execUnitTerm n s
  | .unitDataA u => Sys2Proof.Machine.execUnitDataA u s
  | .unitDataB u => Sys2Proof.Machine.execUnitDataB u s
  | .unitDataC u => Sys2Proof.Machine.execUnitDataC u s
  | .unitInvalid u => Sys2Proof.Machine.execUnitInvalid u s
  -- host accesses
  | .rdReg index => Sys2Proof.Machine.execRdReg index s
  | .wrReg index data => Sys2Proof.Machine.execWrReg index data s
  | .wrIn index data => Sys2Proof.Machine.execWrIn index data s
  | .rdIn index => Sys2Proof.Machine.execRdIn index s
  | .rdOut index => Sys2Proof.Machine.execRdOut index s
  | .wrOut index data => Sys2Proof.Machine.execWrOut index data s
  | .accReserved w index data => Sys2Proof.Machine.execAccReserved w index data s

end Sys2Proof.Machine
end

