-- ==== Sys2Proof/Machine/Fetch.lean ====
section
/-! DEFINITION. What the next event of the total order (20_memory.md R57) asks for, and the state in which a given
raw form is the next event. -/

namespace Sys2Proof.Machine

open Sys2Proof

/-- What one event comes to before an instruction runs. -/
inductive Fetched where
  /-- `i` runs, in the state with the event taken off. -/
  | run (i : Instr) (s : State)
  /-- No instruction runs: a reset, or an engine turn in which no step is enabled. -/
  | settled (s : State)
  /-- A raw form that decodes to nothing. -/
  | reject (why : DecodeError)
  deriving DecidableEq, Repr

/-- The engine's turn: the enabled step, or nothing where none is enabled (R84). -/
def fetchEngine (s : State) : Fetched :=
  match s.enabledStep with
  | some i => .run i s
  | none => .settled s

/-- The next event. Where `inputs` is used up the engine moves, so that it moves in the end in every run: the weak
fairness of R188 (log 3). -/
def fetch (s : State) : Fetched :=
  match s.inputs with
  | [] => fetchEngine s
  | .engine :: rest => fetchEngine { s with inputs := rest }
  | .reset :: rest => .settled { s with inputs := rest }.afterReset
  | .issue r :: rest =>
    match decode r with
    | .ok i => .run i { s with inputs := rest }
    | .error why => .reject why

/-- `s` with what R84 tests so that the engine step of selector `sel` is the enabled one: STATE, and for the steps
with a condition the cursor I, the length it is compared with, and the data unit looked at (log 4). -/
def State.readied (s : State) (sel : BitVec 8) : State :=
  if sel = selEncDataIn then { s with state := .encRun, inLen := 1#32, nb := 32, i := 0 }
  else if sel = selEncDataStraddle then { s with state := .encRun, inLen := 1#32, nb := 32, i := 30 }
  else if sel = selEncTerm then { s with state := .encRun, inLen := 1#32, nb := 32, i := 45 }
  else if sel = selDecTerm then { s with state := .decTerm }
  else if sel = selDecPlaceIn then
    { s with state := .decRun, inLen := 2#32, i := 0, inBuf := s.inBuf.put 0 0x3400#32 }
  else if sel = selDecPlaceStraddle then
    { s with state := .decRun, inLen := 4#32, i := 2, inBuf := s.inBuf.put 2 0x3400#32 }
  else if sel = selDecTrim then { s with state := .decRun, inLen := 1#32, i := 0 }
  else if sel = selDecCharBad then
    { s with state := .decRun, inLen := 2#32, i := 0, inBuf := s.inBuf.put 0 0x0000#32 }
  else s

/-- `s` with the raw form `r` as its next event, and where `r` is an engine step's selector, with that step enabled. -/
def State.placing (s : State) (r : Raw) : State :=
  match r with
  | .selector sel => { s.readied sel with inputs := .issue r :: s.inputs }
  | .access _ _ _ _ | .mapper _ _ | .unit _ => { s with inputs := .issue r :: s.inputs }

end Sys2Proof.Machine
end

