-- ==== Sys2Proof/Machine/Step.lean ====
section
/-! DEFINITION. One step of the machine: one event of the total order (20_memory.md R57), and the state in which a
table word is that event. -/

namespace Sys2Proof.Machine

open Sys2Proof

/-- One event: the instruction it comes to, run; or the state it settles in; or its rejection by name. -/
def step (s : State) : Host.Outcome State Fault Refusal :=
  match fetch s with
  | .run i t => exec i t
  | .settled t => .next t
  | .reject why => .refused (.undecodable why)

/-- `s` with the instruction of a table word as the next event (log 4). -/
def State.withFetchWord (s : State) (nbits w : Nat) : State :=
  match rawOfTable nbits w with
  | some r => s.placing r
  | none => s

end Sys2Proof.Machine
end

