-- ==== Sys2Proof/Machine/Script.lean ====
section
/-! DEFINITION. The host script: its lines and pseudo-operations as accesses (30_encoding.md R82, R83), and the host's
calls (43_host_commands.md R152); log 22. -/

namespace Sys2Proof.Machine

open Sys2Proof

/-- The names a script line gives the registers (R82). -/
inductive RegName where
  | cmd
  | status
  | inLen
  | outLen
  | errInfo
  deriving DecidableEq, Repr

/-- The REG index of each name (10_state.md R24). -/
def RegName.index : RegName → Nat
  | .cmd => 0
  | .status => 1
  | .inLen => 2
  | .outLen => 3
  | .errInfo => 4

/-- A line of a host script (R82). -/
inductive Line where
  | wrReg (name : RegName) (v : Word)
  | rdReg (name : RegName)
  | wrIn (k : Nat) (v : Word)
  | rdIn (k : Nat)
  | rdOut (k : Nat)
  | wrOut (k : Nat) (v : Word)
  deriving DecidableEq, Repr

/-- The encoding of a line: the tuple of R79. -/
def Line.access : Line → Raw
  | .wrReg name v => .access 0b00#2 1#1 name.index v
  | .rdReg name => .access 0b00#2 0#1 name.index 0#32
  | .wrIn k v => .access 0b01#2 1#1 k v
  | .rdIn k => .access 0b01#2 0#1 k 0#32
  | .rdOut k => .access 0b10#2 0#1 k 0#32
  | .wrOut k v => .access 0b10#2 1#1 k v

/-- A line as an event. -/
def Line.event (l : Line) : Event := .issue l.access

/-- `encode` (R83). -/
def lineEncode : Line := .wrReg .cmd 0x00000001#32

/-- `decode` (R83). -/
def lineDecode : Line := .wrReg .cmd 0x00000002#32

/-- The IN_BUF writes of `load`, from index `k` on. -/
def loadFrom : Nat → List Word → List Line
  | _, [] => []
  | k, v :: vs => .wrIn k v :: loadFrom (k + 1) vs

/-- `load [v0, ..., v(n-1)]` (R83). -/
def load (vs : List Word) : List Line := loadFrom 0 vs ++ [.wrReg .inLen (BitVec.ofNat 32 vs.length)]

/-- One round of `wait` reads STATUS (R83). -/
def lineWait : Line := .rdReg .status

/-- `wait` reads again while the value read has bit 3 set (R83). -/
def waits (status : Word) : Bool := status.getLsbD 3

/-- The OUT_BUF reads of `collect`, `m` of them, from index `k` on. -/
def collectFrom (k : Nat) : Nat → List Line
  | 0 => []
  | m + 1 => .rdOut k :: collectFrom (k + 1) m

/-- `collect` where its read of OUT_LEN gives `m` (R83). -/
def collect (m : Word) : List Line := .rdReg .outLen :: collectFrom 0 m.toNat

/-- The call `encode(words)` up to its `wait` (R152). -/
def callEncode (words : List Word) : List Line := load words ++ [lineEncode]

/-- The call `decode(string)` up to its `wait`, the string's units zero-extended to elements (R52, R152). -/
def callDecode (units : List CodeUnit) : List Line := load (units.map fun u => u.setWidth 32) ++ [lineDecode]

end Sys2Proof.Machine
end

