-- ==== Sys2Proof/Safety.lean ====
section
/-! DEFINITION. The terms claims are stated in: the parameters' constraint (00_scope.md R5), the spec's ranges as
propositions over naturals, the bitstream (20_memory.md R51), and the invariants of a run. -/

namespace Sys2Proof.Machine

open Sys2Proof

/-- R5's constraint on the capacities. -/
abbrev CapacitiesFit (p : Params) : Prop :=
  1 ≤ p.capIn ∧ ceilDiv (32 * p.capIn) 15 + 1 ≤ p.capOut

/-- The ranges DATA_A, DATA_B and DATA_C of R72, over naturals. -/
abbrev DataUnit (u : Nat) : Prop :=
  (0x3400 ≤ u ∧ u ≤ 0x4DB5) ∨ (0x4E00 ≤ u ∧ u ≤ 0x9FA5) ∨ (0xE000 ≤ u ∧ u ≤ 0xF4A3)

/-- The range TERM of R72. -/
abbrev TermUnit (u : Nat) : Prop := 0x2401 ≤ u ∧ u ≤ 0x240F

/-- The group a data unit carries, over naturals: the formula of each row of R72 and R91. -/
def groupNat (u : Nat) : Nat :=
  if u ≤ 0x4DB5 then u - 0x3400 else if u ≤ 0x9FA5 then u - 0x4E00 + 6582 else u - 0xE000 + 27484

/-- `i` is a host write of `v` to CMD: one of the three CMD rows, or the WR_REG row at index 0 (R140). -/
def CmdWriteForm (i : Instr) (v : Word) : Prop :=
  (i = .encode ∧ v = 0x00000001#32) ∨ (i = .decode ∧ v = 0x00000002#32) ∨ i = .refuse v ∨ i = .wrReg 0 v

/-- `i` is one of the eight engine steps (R84). -/
def EngineStep (i : Instr) : Prop :=
  i = .encDataIn ∨ i = .encDataStraddle ∨ i = .encTerm ∨ i = .decTerm ∨ i = .decCharBad ∨ i = .decPlaceIn
    ∨ i = .decPlaceStraddle ∨ i = .decTrim

/-- The number `Unit(k)` (R52): bits [15:0] of IN_BUF entry `k`. -/
def State.unitNat (s : State) (k : Nat) : Nat := (s.inEntry k).toNat % 2 ^ 16

/-- Stream bit `t` of the input words, 0 past the end (R51, R53). -/
def State.streamBit (s : State) (t : Nat) : Bool :=
  decide (t < 32 * s.inLen.toNat) && (s.inEntry (t / 32)).getLsbD (31 - t % 32)

/-- Stream bit `t` of the groups the input's code units carry (R51, R91). -/
def State.unitBit (s : State) (t : Nat) : Bool :=
  ((fromchar (s.unitAt (t / 15))).getD 0#15).getLsbD (14 - t % 15)

/-- Stream bit `t` of what OUT_BUF holds, read as words (R51). -/
def State.outBit (s : State) (t : Nat) : Bool := (s.outEntry (t / 32)).getLsbD (31 - t % 32)

/-- OUT_BUF entry `g` is the data unit of the input's group `g` (R51, R90, R100). -/
def State.HoldsGroup (s : State) (g : Nat) : Prop :=
  ∃ p : Group, s.outEntry g = (tochar p).setWidth 32 ∧ ∀ b < 15, p.getLsbD b = s.streamBit (15 * g + 14 - b)

/-- The event is the engine's turn or a host access: every event of R57 but a reset. -/
def Event.EngineOrAccess (e : Event) : Prop :=
  e = .engine ∨ ∃ space w index data, e = .issue (.access space w index data)

/-- How many of the events are no turn of the engine. -/
def othersIn (events : List Event) : Nat := (events.filter fun e => e ≠ .engine).length

/-- `t` is `u` but for what a host access may change while BUSY = 1: the events to come, the report of a CMD write
(R144) and the value returned to a read (R79). -/
def State.SameButForHost (t u : State) : Prop :=
  t = { u with inputs := t.inputs, cmdErr := t.cmdErr, cmdCause := t.cmdCause, returned := t.returned }

/-- The next event is the engine's turn. -/
def State.EngineMoves (s : State) : Prop := s.inputs = [] ∨ ∃ rest, s.inputs = .engine :: rest

/-- The next event is a host write of `v` to CMD. -/
def State.CmdWriteNext (s : State) (v : Word) : Prop :=
  ∃ rest, s.inputs = .issue (.access 0b00#2 1#1 0 v) :: rest

/-- The next event is a reset. -/
def State.ResetNext (s : State) : Prop := ∃ rest, s.inputs = .reset :: rest

/-- A command is accepted: the next event is a CMD write of a command word, not busy, with a length that fits (R140). -/
def State.CommandAccepted (s : State) : Prop :=
  (s.CmdWriteNext 0x00000001#32 ∨ s.CmdWriteNext 0x00000002#32)
    ∧ s.busy = false ∧ s.inLen.toNat ≤ s.params.capIn

/-- What holds of the registers and buffers in every state a run reaches. -/
structure State.Inv (s : State) : Prop where
  /-- R5. -/
  params : CapacitiesFit s.params
  /-- IN_BUF is in canonical form within CAP_IN (R62). -/
  inWf : s.inBuf.wf s.params.capIn = true
  /-- OUT_BUF is in canonical form within CAP_OUT (R54, R62). -/
  outWf : s.outBuf.wf s.params.capOut = true
  /-- CMD_ERR and CMD_CAUSE agree (R29). -/
  cause : s.cmdErr = true ↔ s.cmdCause ≠ .none
  /-- ERR_INFO's reserved bits read 0, CP is 0 where KIND is NONE or EMPTY, and KIND is NONE outside ERROR
  (R27, R32, R165). -/
  errForm : ∃ kind cp, s.errInfo = errWord kind cp ∧ (kind = .none ∨ kind = .empty → cp = 0#16)
    ∧ (s.state = .error ↔ kind ≠ .none)
  /-- OUT_LEN is 0 but in DONE (R31, R163, R180). -/
  outLenZero : s.state ≠ .done → s.outLen = 0#32
  /-- A running operation's input fits (R140). -/
  inLenFits : s.busy = true → s.inLen.toNat ≤ s.params.capIn
  /-- The encoder's registers (R100, R108). -/
  encRegs : s.state = .encRun → s.nb = 32 * s.inLen.toNat ∧ s.i = 15 * s.oc ∧ s.i ≤ s.nb + 14
  /-- The decoder's registers (R84, R120, R122). -/
  decRegs : s.state = .decRun → s.tb ≠ 0#4 ∧ s.i + 1 ≤ s.inLen.toNat ∧ s.l = ceilDiv (15 * s.i) 32
  /-- The units already placed are data units (R123, R162). -/
  decUnits : s.state = .decRun → ∀ k < s.i, isData (s.unitAt k) = true
  /-- No counter exceeds what CTR_WIDTH must hold (R5, R36), and OC and L stay within CAP_OUT (R54). -/
  counters : s.i ≤ 32 * s.params.capIn + 14 ∧ s.nb ≤ 32 * s.params.capIn ∧ s.oc ≤ s.params.capOut
    ∧ s.l ≤ s.params.capOut
  /-- Every entry the running operation has counted has been written, so none is a free value (R34). -/
  busyWritten : s.busy = true → ∀ k < s.outLive, (s.outBuf.find k).isSome = true

/-- What the running operation has written so far is what R51, R90 and R121 make of its input. -/
structure State.ResultInv (s : State) : Prop where
  /-- ENCODE: every entry below OC holds its group's data unit (R100, R103, R104). -/
  enc : s.state = .encRun → ∀ g < s.oc, s.HoldsGroup g
  /-- DECODE: the entries below L hold the bits of the units placed, and zeros after them (R121, R124, R125). -/
  dec : s.state = .decRun → ∀ t < 32 * s.l, s.outBit t = (decide (t < 15 * s.i) && s.unitBit t)

end Sys2Proof.Machine
end

