-- ==== Sys2Proof/Certificates/Slice0/Obligations.lean ====
section
/-! DEFINITION. The statements for the provers. Each docstring names the rule of spec/ it formalises. Words over
naturals are used where the rule computes over naturals (00_scope.md R7), so that a statement does not repeat the
model's own expression. `outEra`, `returned`, `mapOut` and `unitOut` are the model's own fields (logs 8, 9, 10, 12):
where one appears in a record it says only that nothing else of the state changes. -/

open Sys2Proof Sys2Proof.Machine

/-! ## Encoding -/

/-- R72, R73, R78, R79, R84, R90 to R93: decoding what the encoder writes gives the instruction back, for every
well-formed instruction. -/
def Obligations.DecodeInvertsEncode : Prop :=
  ∀ i : Instr, i.wellFormed = true → decode (encode i) = .ok i

/-- R72, R78, R79, R84: whatever decodes, decodes to an instruction with operands in its row's range. -/
def Obligations.DecodedInstructionIsWellFormed : Prop :=
  ∀ (r : Raw) (i : Instr), decode r = .ok i → i.wellFormed = true

/-- R72, R73, R78, R79: words written out from the spec's encodings decode to the rows they stand for. Two clauses
rest on a form of the model's choice: the selector 0x2 is log 5's byte for R84's DEC_TERM (a width log 6 reads), and
the mapper operand 0x8000 is log 9's raw form, refused because R90 takes p in [0, 32767]. -/
def Obligations.SpecWordsDecodeToTheirRows : Prop :=
  decode (.access 0b00#2 1#1 0 0x00000001#32) = .ok .encode ∧
  decode (.access 0b00#2 1#1 0 0x00000002#32) = .ok .decode ∧
  decode (.access 0b00#2 1#1 0 0x80000001#32) = .ok (.refuse 0x80000001#32) ∧
  decode (.access 0b00#2 1#1 2 0x00000001#32) = .ok (.wrReg 2 0x00000001#32) ∧
  decode (.access 0b01#2 1#1 0 0x12345678#32) = .ok (.wrIn 0 0x12345678#32) ∧
  decode (.access 0b10#2 0#1 3 0#32) = .ok (.rdOut 3) ∧
  decode (.access 0b11#2 0#1 7 0#32) = .ok (.accReserved false 7 0#32) ∧
  decode (.unit 0x2402#16) = .ok (.unitTerm 2#4) ∧
  decode (.unit 0x2400#16) = .ok (.unitInvalid 0x2400#16) ∧
  decode (.unit 0x4DB5#16) = .ok (.unitDataA 0x4DB5#16) ∧
  decode (.unit 0x4E00#16) = .ok (.unitDataB 0x4E00#16) ∧
  decode (.unit 0xF4A3#16) = .ok (.unitDataC 0xF4A3#16) ∧
  decodeTableWord 8 0x2 = some .decTerm ∧
  decode (.mapper .tochar 0x8000#16) = .error .groupOutOfRange

/-! ## Events -/

/-- R55, R57: when the next event is a raw form that decodes, the step takes the event off and runs the instruction. -/
def Obligations.StepRunsTheDecodedInstruction : Prop :=
  ∀ (s : State) (r : Raw) (rest : List Event) (i : Instr),
    s.inputs = .issue r :: rest → decode r = .ok i → step s = exec i { s with inputs := rest }

/-- R57, R84, R188: the engine's turn runs the enabled step, and changes nothing where none is enabled. -/
def Obligations.EngineTurnRunsTheEnabledStep : Prop :=
  ∀ s : State,
    (∀ i, s.enabledStep = some i →
      (s.inputs = [] → step s = exec i s) ∧
      (∀ rest, s.inputs = .engine :: rest → step s = exec i { s with inputs := rest })) ∧
    (s.enabledStep = none →
      (s.inputs = [] → step s = .next s) ∧
      (∀ rest, s.inputs = .engine :: rest → step s = .next { s with inputs := rest }))

/-- A step that answers a next state takes one event off the list of events to come, or leaves an empty list empty,
and never changes the parameters. The list is log 3's form of R57's total order, and the parameters held in State are
log 1's form of R5's. -/
def Obligations.StepTakesOneEventAndKeepsTheParameters : Prop :=
  ∀ s t : State, step s = .next t → t.inputs = s.inputs.tail ∧ t.params = s.params

/-- R84: each step is enabled exactly in the STATE and under the condition of its row, none is in IDLE, DONE or ERROR,
and in every other state of a run one is. -/
def Obligations.EngineStepSelectionTable : Prop :=
  ∀ s : State,
    (s.enabledStep = some .encDataIn ↔ s.state = .encRun ∧ s.i < s.nb ∧ s.i % 32 ≤ 17) ∧
    (s.enabledStep = some .encDataStraddle ↔ s.state = .encRun ∧ s.i < s.nb ∧ 17 < s.i % 32) ∧
    (s.enabledStep = some .encTerm ↔ s.state = .encRun ∧ s.nb ≤ s.i) ∧
    (s.enabledStep = some .decTerm ↔ s.state = .decTerm) ∧
    (s.enabledStep = some .decCharBad ↔
      s.state = .decRun ∧ s.i + 1 < s.inLen.toNat ∧ ¬ DataUnit (s.unitNat s.i)) ∧
    (s.enabledStep = some .decPlaceIn ↔
      s.state = .decRun ∧ s.i + 1 < s.inLen.toNat ∧ DataUnit (s.unitNat s.i) ∧ (15 * s.i) % 32 ≤ 17) ∧
    (s.enabledStep = some .decPlaceStraddle ↔
      s.state = .decRun ∧ s.i + 1 < s.inLen.toNat ∧ DataUnit (s.unitNat s.i) ∧ 17 < (15 * s.i) % 32) ∧
    (s.enabledStep = some .decTrim ↔ s.state = .decRun ∧ s.i + 1 = s.inLen.toNat) ∧
    (s.state = .idle ∨ s.state = .done ∨ s.state = .error → s.enabledStep = none) ∧
    (s.Inv → s.busy = true → ∃ i, s.enabledStep = some i ∧ EngineStep i) ∧
    (s.Inv → s.state = .decRun → 1 ≤ s.inLen.toNat ∧ s.i ≤ s.inLen.toNat - 1)

/-- R84 ("Selected when", R103 to R126): an engine step has an effect only in a state where it is the enabled one; in
any other state the model refuses it by name (log 14, the model's choice). -/
def Obligations.EngineStepsRunOnlyWhereEnabled : Prop :=
  ∀ (i : Instr) (s : State), EngineStep i → s.enabledStep ≠ some i → exec i s = .refused .stepNotEnabled

/-! ## Reset -/

/-- R180, R181: reset puts every register at its value and leaves both buffers unspecified, in any STATE. The free
values are the model's form of "unspecified" (logs 11 and 12); that the parameters and the coming events stay is
log 18's. -/
def Obligations.ResetPutsTheResetValues : Prop :=
  ∀ (s : State) (rest : List Event), s.inputs = .reset :: rest →
    ∃ t, step s = .next t ∧
      t.statusWord = 0#32 ∧ t.state = .idle ∧ t.busy = false ∧ t.cmdErr = false ∧ t.cmdCause = .none ∧
      t.inLen = 0#32 ∧ t.outLen = 0#32 ∧ t.errInfo = 0#32 ∧ t.regValue 0 = 0#32 ∧
      t.i = 0 ∧ t.nb = 0 ∧ t.oc = 0 ∧ t.l = 0 ∧ t.tb = 0#4 ∧
      (∀ k, t.inEntry k = Config.freeIn t.resets k) ∧ (∀ k, t.outEntry k = Config.freeOut t.outEra k) ∧
      t.params = s.params ∧ t.inputs = rest

/-- The state right after reset meets both invariants (R5, R180; the capacities there are log 1's choice). -/
def Obligations.ResetStateMeetsTheInvariants : Prop :=
  State.reset.Inv ∧ State.reset.ResultInv

/-! ## Invariants -/

/-- Every event keeps the invariant of the registers and buffers (R27, R29, R32, R54, R84, R100, R122). -/
def Obligations.StepKeepsTheInvariant : Prop :=
  ∀ s t : State, s.Inv → step s = .next t → t.Inv

/-- Every event keeps what the running operation has written equal to what R51, R90, R103, R104, R121, R124 and R125
make of its input: the units of the stream's groups while encoding, the bits of the placed groups while decoding. -/
def Obligations.StepKeepsTheResultRight : Prop :=
  ∀ s t : State, s.Inv → s.ResultInv → step s = .next t → t.ResultInv

/-- R126, R160: from a state of a run no step faults but DEC_TRIM's model fault under EMPTY_TRIM = FAULT, and the
engine's turn is never refused. -/
def Obligations.OnlyEmptyTrimStopsARun : Prop :=
  ∀ s : State, s.Inv →
    (∀ f, step s = .fault f →
      f = .emptyTrim ∧ s.params.emptyTrim = .fault ∧ s.state = .decRun ∧ s.tb.toNat < 15 ∧ s.l = 0) ∧
    (∀ r, s.EngineMoves → step s ≠ .refused r)

/-! ## The alphabet mapper and the code units -/

/-- R90: TOCHAR gives the unit of its table for every group (the output line is log 9's). -/
def Obligations.TocharGivesTheDataUnit : Prop :=
  ∀ (p : Group) (s : State), ∃ u : CodeUnit,
    exec (.tochar p) s = .next { s with mapOut := some (.unit u) } ∧
    u.toNat = if p.toNat ≤ 6581 then 0x3400 + p.toNat
      else if p.toNat ≤ 27483 then 0x4E00 + (p.toNat - 6582)
      else 0xE000 + (p.toNat - 27484)

/-- R91: FROMCHAR gives the group of a data unit, and fails carrying any other unit (the output line is log 9's). -/
def Obligations.FromcharGivesTheGroupOrFails : Prop :=
  ∀ (c : CodeUnit) (s : State),
    (DataUnit c.toNat → ∃ p : Group,
      exec (.fromchar c) s = .next { s with mapOut := some (.group p) } ∧
      p.toNat = if c.toNat ≤ 0x4DB5 then c.toNat - 0x3400
        else if c.toNat ≤ 0x9FA5 then (c.toNat - 0x4E00) + 6582
        else (c.toNat - 0xE000) + 27484) ∧
    (¬ DataUnit c.toNat → exec (.fromchar c) s = .next { s with mapOut := some (.fail c) })

/-- R92: TOTERM gives 0x2400 + n for every n in [1, 15] (the output line is log 9's). -/
def Obligations.TotermGivesTheTerminator : Prop :=
  ∀ (n : TailCount) (s : State), 1 ≤ n.toNat → ∃ u : CodeUnit,
    exec (.toterm n) s = .next { s with mapOut := some (.unit u) } ∧ u.toNat = 0x2400 + n.toNat

/-- R93: FROMTERM gives t - 0x2400 for a terminator unit, and fails carrying any other unit (the output line is
log 9's). -/
def Obligations.FromtermGivesTheCountOrFails : Prop :=
  ∀ (t : CodeUnit) (s : State),
    (TermUnit t.toNat → ∃ n : TailCount,
      exec (.fromterm t) s = .next { s with mapOut := some (.count n) } ∧ n.toNat = t.toNat - 0x2400) ∧
    (¬ TermUnit t.toNat → exec (.fromterm t) s = .next { s with mapOut := some (.fail t) })

/-- R94: the mapper's inverse laws, and TOCHAR a bijection onto the data units, which no terminator is. -/
def Obligations.MapperInverseLaws : Prop :=
  (∀ p : Group, fromchar (tochar p) = some p) ∧
  (∀ c : CodeUnit, DataUnit c.toNat → ∃ p, fromchar c = some p ∧ tochar p = c) ∧
  (∀ n : TailCount, 1 ≤ n.toNat → fromterm (toterm n) = some n) ∧
  (∀ p q : Group, tochar p = tochar q → p = q) ∧
  (∀ c : CodeUnit, (∃ p, tochar p = c) ↔ DataUnit c.toNat) ∧
  (∀ p : Group, ¬ TermUnit (tochar p).toNat)

/-- R72, R73: the class of every unit is the one whose range holds it, INVALID being the five gaps. -/
def Obligations.UnitClassesAreTheSpecRanges : Prop :=
  ∀ u : CodeUnit,
    (classOf u = .dataA ↔ 0x3400 ≤ u.toNat ∧ u.toNat ≤ 0x4DB5) ∧
    (classOf u = .dataB ↔ 0x4E00 ≤ u.toNat ∧ u.toNat ≤ 0x9FA5) ∧
    (classOf u = .dataC ↔ 0xE000 ≤ u.toNat ∧ u.toNat ≤ 0xF4A3) ∧
    (classOf u = .term ↔ 0x2401 ≤ u.toNat ∧ u.toNat ≤ 0x240F) ∧
    (classOf u = .invalid ↔ u.toNat ≤ 0x2400 ∨ (0x2410 ≤ u.toNat ∧ u.toNat ≤ 0x33FF)
      ∨ (0x4DB6 ≤ u.toNat ∧ u.toNat ≤ 0x4DFF) ∨ (0x9FA6 ≤ u.toNat ∧ u.toNat ≤ 0xDFFF) ∨ 0xF4A4 ≤ u.toNat)

/-- R72, R73: a code unit presented alone is read as its class with the value it carries, and nothing else changes
(the reading line is log 10's). -/
def Obligations.CodeUnitRowsReadClassAndValue : Prop :=
  ∀ (s : State) (u : CodeUnit) (n : TailCount),
    (1 ≤ n.toNat → exec (.unitTerm n) s = .next { s with unitOut := some (.term n) }) ∧
    (0x3400 ≤ u.toNat → u.toNat ≤ 0x4DB5 → ∃ p : Group,
      exec (.unitDataA u) s = .next { s with unitOut := some (.dataA p) } ∧ p.toNat = u.toNat - 0x3400) ∧
    (0x4E00 ≤ u.toNat → u.toNat ≤ 0x9FA5 → ∃ p : Group,
      exec (.unitDataB u) s = .next { s with unitOut := some (.dataB p) } ∧ p.toNat = u.toNat - 0x4E00 + 6582) ∧
    (0xE000 ≤ u.toNat → u.toNat ≤ 0xF4A3 → ∃ p : Group,
      exec (.unitDataC u) s = .next { s with unitOut := some (.dataC p) } ∧ p.toNat = u.toNat - 0xE000 + 27484) ∧
    (¬ DataUnit u.toNat → ¬ TermUnit u.toNat →
      exec (.unitInvalid u) s = .next { s with unitOut := some .invalid })

/-! ## Commands -/

/-- R144, with R140's order BUSY, ILLEGAL_OP, LENGTH: a refused CMD write sets CMD_ERR and its cause and changes
nothing else, for every form of the write. -/
def Obligations.RefusedCommandSetsOnlyItsCause : Prop :=
  ∀ (i : Instr) (v : Word) (s : State), CmdWriteForm i v →
    (s.busy = true → exec i s = .next { s with cmdErr := true, cmdCause := .busy }) ∧
    (s.busy = false → v ≠ 0x00000001#32 → v ≠ 0x00000002#32 →
      exec i s = .next { s with cmdErr := true, cmdCause := .illegalOp }) ∧
    (s.busy = false → v = 0x00000001#32 ∨ v = 0x00000002#32 → s.params.capIn < s.inLen.toNat →
      exec i s = .next { s with cmdErr := true, cmdCause := .length })

/-- R142: ENCODE accepted. The rest of the state, OUT_BUF's entries among it, is unchanged. -/
def Obligations.EncodeCommandStarts : Prop :=
  ∀ (i : Instr) (s : State), CmdWriteForm i 0x00000001#32 → s.busy = false → s.inLen.toNat ≤ s.params.capIn →
    ∃ t, exec i s = .next t ∧
      t = { s with
            cmdErr := false, cmdCause := .none, outLen := 0#32, errInfo := 0#32, nb := 32 * s.inLen.toNat,
            i := 0, oc := 0, state := .encRun, outEra := t.outEra }

/-- R143: DECODE accepted. The rest of the state, OUT_BUF's entries among it, is unchanged. -/
def Obligations.DecodeCommandStarts : Prop :=
  ∀ (i : Instr) (s : State), CmdWriteForm i 0x00000002#32 → s.busy = false → s.inLen.toNat ≤ s.params.capIn →
    ∃ t, exec i s = .next t ∧
      t = { s with
            cmdErr := false, cmdCause := .none, outLen := 0#32, errInfo := 0#32, state := .decTerm,
            outEra := t.outEra }

/-! ## Host accesses -/

/-- R26, R27, R28, R32: the numbers of STATE, CMD_CAUSE and KIND, BUSY as a function of STATE, and ERR_INFO's
fields. -/
def Obligations.StatusFieldNumbers : Prop :=
  (SeqState.idle.code = 0#3 ∧ SeqState.encRun.code = 1#3 ∧ SeqState.decTerm.code = 2#3 ∧
    SeqState.decRun.code = 3#3 ∧ SeqState.done.code = 4#3 ∧ SeqState.error.code = 5#3) ∧
  (CmdCause.none.code = 0#2 ∧ CmdCause.illegalOp.code = 1#2 ∧ CmdCause.busy.code = 2#2 ∧
    CmdCause.length.code = 3#2) ∧
  (ErrKind.none.code = 0#2 ∧ ErrKind.empty.code = 1#2 ∧ ErrKind.term.code = 2#2 ∧ ErrKind.data.code = 3#2) ∧
  (∀ s : State, s.busy = true ↔ s.state.code = 1#3 ∨ s.state.code = 2#3 ∨ s.state.code = 3#3) ∧
  (∀ (kind : ErrKind) (cp : CodeUnit), (errWord kind cp).toNat = cp.toNat + kind.code.toNat * 65536)

/-- R145: what a read of each REG index returns, and that it changes nothing else. That ERR_INFO has no bit outside CP
and KIND holds in every state of a run (`Inv`, kept by every step). -/
def Obligations.RegReadReturnsTheRegister : Prop :=
  ∀ (j : Nat) (s : State), ∃ v : Word,
    exec (.rdReg j) s = .next { s with returned := some v } ∧
    (j = 0 → v = 0#32) ∧
    (j = 1 → v.toNat = s.state.code.toNat + 8 * s.busy.toNat + 16 * s.cmdErr.toNat + 32 * s.cmdCause.code.toNat) ∧
    (j = 2 → v = s.inLen) ∧
    (j = 3 → v = s.outLen) ∧
    (j = 4 → v = s.errInfo ∧ (s.Inv → v.toNat = s.errCp.toNat + s.errKind.toNat * 65536)) ∧
    (5 ≤ j → v = 0#32)

/-- R146: a write to a register other than CMD stores IN_LEN while not busy, and is ignored otherwise. -/
def Obligations.RegWriteStoresOnlyInLen : Prop :=
  ∀ (j : Nat) (v : Word) (s : State), j ≠ 0 →
    (j = 2 → s.busy = false → exec (.wrReg j v) s = .next { s with inLen := v }) ∧
    (j ≠ 2 ∨ s.busy = true → exec (.wrReg j v) s = .next s)

/-- R147: an IN_BUF write stores its entry, and no other, when the index is below CAP_IN and BUSY = 0; otherwise it is
ignored. -/
def Obligations.InBufWriteStoresItsEntry : Prop :=
  ∀ (k : Nat) (v : Word) (s : State),
    (k < s.params.capIn → s.busy = false → ∃ t,
      exec (.wrIn k v) s = .next t ∧ t = { s with inBuf := t.inBuf } ∧
      ∀ j, t.inEntry j = if j = k then v else s.inEntry j) ∧
    (s.params.capIn ≤ k ∨ s.busy = true → exec (.wrIn k v) s = .next s)

/-- R148: an IN_BUF read returns the entry below CAP_IN and 0 above, and changes nothing else; no engine step changes
an entry. -/
def Obligations.InBufReadReturnsTheEntry : Prop :=
  ∀ (k : Nat) (s : State),
    (k < s.params.capIn → exec (.rdIn k) s = .next { s with returned := some (s.inEntry k) }) ∧
    (s.params.capIn ≤ k → exec (.rdIn k) s = .next { s with returned := some 0#32 }) ∧
    (∀ (i : Instr) (t : State), EngineStep i → exec i s = .next t → t.inEntry k = s.inEntry k)

/-- R56, R61, R149: an OUT_BUF read returns an entry of the result, or one the running operation has written, as it
stands; 0 above CAP_OUT; and for an entry outside them a free value (log 12, the model's form of "any value"). -/
def Obligations.OutBufReadReturnsTheResult : Prop :=
  ∀ (k : Nat) (s : State),
    (k < s.params.capOut → s.state = .done → k < s.outLen.toNat →
      exec (.rdOut k) s = .next { s with returned := some (s.outEntry k) }) ∧
    (k < s.params.capOut → s.state = .encRun → k < s.oc →
      exec (.rdOut k) s = .next { s with returned := some (s.outEntry k) }) ∧
    (k < s.params.capOut → s.state = .decRun → k < s.l →
      exec (.rdOut k) s = .next { s with returned := some (s.outEntry k) }) ∧
    (k < s.params.capOut → s.outLive ≤ k →
      exec (.rdOut k) s = .next { s with returned := some (Config.freeOut s.outEra k) }) ∧
    (s.params.capOut ≤ k → exec (.rdOut k) s = .next { s with returned := some 0#32 })

/-- R150: a host write to OUT_BUF is ignored at every index and in every STATE. -/
def Obligations.OutBufWriteIsIgnored : Prop :=
  ∀ (k : Nat) (v : Word) (s : State), exec (.wrOut k v) s = .next s

/-- R151: an access to SPACE 0b11 returns 0 on a read and is ignored on a write. -/
def Obligations.ReservedSpaceReadsZero : Prop :=
  ∀ (k : Nat) (v : Word) (s : State),
    exec (.accReserved false k v) s = .next { s with returned := some 0#32 } ∧
    exec (.accReserved true k v) s = .next s

/-- R55: a read has no side effect, so the same read done again returns the same value and changes nothing. -/
def Obligations.HostReadsAreIdempotent : Prop :=
  ∀ (i : Instr) (s t : State),
    ((∃ j, i = .rdReg j) ∨ (∃ k, i = .rdIn k) ∨ (∃ k, i = .rdOut k) ∨ (∃ k v, i = .accReserved false k v)) →
    exec i s = .next t → t = { s with returned := t.returned } ∧ t.returned ≠ none ∧ exec i t = .next t

/-! ## The host script -/

/-- R24, R78, R79, R82, R83: the access of every script line, and of `encode` and `decode`, decodes to its row's
instruction. A line that writes CMD is ENCODE, DECODE or REFUSE by its value. -/
def Obligations.ScriptLinesDecodeToTheirRows : Prop :=
  ∀ (k : Nat) (v : Word),
    decode lineEncode.access = .ok .encode ∧ decode lineDecode.access = .ok .decode ∧
    decode (Line.wrReg .cmd 0x00000001#32).access = .ok .encode ∧
    decode (Line.wrReg .cmd 0x00000002#32).access = .ok .decode ∧
    (v ≠ 0x00000001#32 → v ≠ 0x00000002#32 → decode (Line.wrReg .cmd v).access = .ok (.refuse v)) ∧
    (∀ name, decode (Line.rdReg name).access = .ok (.rdReg name.index)) ∧
    (∀ name, name ≠ .cmd → decode (Line.wrReg name v).access = .ok (.wrReg name.index v)) ∧
    decode (Line.wrIn k v).access = .ok (.wrIn k v) ∧ decode (Line.rdIn k).access = .ok (.rdIn k) ∧
    decode (Line.rdOut k).access = .ok (.rdOut k) ∧ decode (Line.wrOut k v).access = .ok (.wrOut k v)

/-- R83, R146, R147, R183: `load` of n values, n within CAP_IN and BUSY = 0, takes n + 1 events and leaves them in
IN_BUF with IN_LEN = n (as a 32-bit register holds it), and everything else as it was. -/
def Obligations.LoadPlacesTheInput : Prop :=
  ∀ (s : State) (vs : List Word) (rest : List Event), s.busy = false → vs.length ≤ s.params.capIn →
    s.inputs = (load vs).map Line.event ++ rest →
    ∃ t : State, core.run (vs.length + 1) s = .next t ∧
      t = { s with inBuf := t.inBuf, inLen := BitVec.ofNat 32 vs.length, inputs := rest } ∧
      ∀ j, t.inEntry j = (vs[j]?).getD (s.inEntry j)

/-! ## Encoder -/

/-- R103: ENC_DATA_IN. The entry OC holds TOCHAR of `(InRead(wi) >> (17 - o)) & MASK15`; every other entry and
everything but OC and I is unchanged. -/
def Obligations.EncDataInWritesTheGroup : Prop :=
  ∀ s : State, s.state = .encRun → s.i < s.nb → s.i % 32 ≤ 17 →
    s.i / 32 < s.params.capIn → s.oc < s.params.capOut →
    ∃ (t : State) (p : Group), exec .encDataIn s = .next t ∧
      t = { s with outBuf := t.outBuf, oc := s.oc + 1, i := s.i + 15 } ∧
      p.toNat = ((s.inEntry (s.i / 32)).toNat / 2 ^ (17 - s.i % 32)) % 2 ^ 15 ∧
      ∀ k, t.outEntry k = if k = s.oc then (tochar p).setWidth 32 else s.outEntry k

/-- R104: ENC_DATA_STRADDLE. The entry OC holds TOCHAR of `hi | lo`, which share no bit, with the word past the input
read as 0 (R53); every other entry and everything but OC and I is unchanged. -/
def Obligations.EncDataStraddleWritesTheGroup : Prop :=
  ∀ s : State, s.state = .encRun → s.i < s.nb → 17 < s.i % 32 →
    s.i / 32 < s.params.capIn → s.inLen.toNat ≤ s.params.capIn → s.oc < s.params.capOut →
    ∃ (t : State) (p : Group), exec .encDataStraddle s = .next t ∧
      t = { s with outBuf := t.outBuf, oc := s.oc + 1, i := s.i + 15 } ∧
      p.toNat = ((s.inEntry (s.i / 32)).toNat * 2 ^ (s.i % 32 - 17)) % 2 ^ 15
        + (if s.i / 32 + 1 < s.inLen.toNat then (s.inEntry (s.i / 32 + 1)).toNat else 0) / 2 ^ (49 - s.i % 32) ∧
      ∀ k, t.outEntry k = if k = s.oc then (tochar p).setWidth 32 else s.outEntry k

/-- R105: ENC_TERM. The entry OC holds TOTERM(15 - overshoot), OUT_LEN the incremented count, STATE is DONE; every
other entry and everything but OC is unchanged. A count of 2^32 or more has no stated OUT_LEN (log 13). -/
def Obligations.EncTermAppendsTheTerminator : Prop :=
  ∀ s : State, s.state = .encRun → s.nb ≤ s.i → s.i ≤ s.nb + 14 → s.oc < s.params.capOut →
    ∃ t, exec .encTerm s = .next t ∧
      t = { s with outBuf := t.outBuf, oc := s.oc + 1, outLen := t.outLen, state := .done } ∧
      (s.oc + 1 < 2 ^ 32 → t.outLen.toNat = s.oc + 1) ∧
      (t.outEntry s.oc).toNat = 0x2400 + (15 - (s.i - s.nb)) ∧
      ∀ k, k ≠ s.oc → t.outEntry k = s.outEntry k

/-- R53: no entry of IN_BUF at IN_LEN or above reaches the encoder's result: with any other contents there, each step
gives the same next state but for those contents. -/
def Obligations.EncoderReadsNothingPastTheInput : Prop :=
  ∀ (s t : State) (i : Instr) (m : Memory), s.Inv → s.state = .encRun →
    (i = .encDataIn ∨ i = .encDataStraddle ∨ i = .encTerm) →
    (∀ k, k < s.inLen.toNat → State.inEntry { s with inBuf := m } k = s.inEntry k) →
    exec i s = .next t → exec i { s with inBuf := m } = .next { t with inBuf := m }

/-- R109, R27: from ENC_RUN the engine's turn always answers a next state, in ENC_RUN or DONE, never ERROR, with
ERR_INFO as it was. -/
def Obligations.EncodeHasNoErrorPath : Prop :=
  ∀ s : State, s.Inv → s.state = .encRun → s.EngineMoves →
    ∃ t, step s = .next t ∧ (t.state = .encRun ∨ t.state = .done) ∧ t.errInfo = s.errInfo

/-- R106, R107, R109, R188: a whole ENCODE of N words takes exactly ceil(32*N/15) + 1 engine steps, and ends in DONE
with the unit of every group and then the terminator of R107's closed form. This is the engine alone (`inputs = []`,
log 3); EveryInterleavingRunsTheSameOperation carries it to every interleaving. -/
def Obligations.EncodeCompletesWithTheEncoding : Prop :=
  ∀ (s : State) (n k : Nat), s.Inv → s.state = .encRun → s.oc = 0 → s.inputs = [] →
    n = s.inLen.toNat → k = ceilDiv (32 * n) 15 →
    (∀ m, m ≤ k → ∃ u : State, core.run m s = .next u ∧ u.state = .encRun) ∧
    ∃ t : State, core.run (k + 1) s = .next t ∧ t.state = .done ∧
      (k + 1 < 2 ^ 32 → t.outLen.toNat = k + 1) ∧
      (∀ g, g < k → t.HoldsGroup g) ∧
      (t.outEntry k).toNat = 0x2400 + (if (2 * n) % 15 = 0 then 15 else (2 * n) % 15) ∧
      t.errInfo = s.errInfo ∧ t.inLen = s.inLen ∧ t.inBuf = s.inBuf

/-! ## Decoder -/

/-- R120, R161: DEC_TERM on no unit, on a last unit that is no terminator, and on a terminator. -/
def Obligations.DecTermChecksTheLastUnit : Prop :=
  ∀ s : State, s.state = .decTerm →
    (s.inLen.toNat = 0 → ∃ t, exec .decTerm s = .next t ∧
      t = { s with errInfo := 0x00010000#32, outLen := 0#32, state := .error, outEra := t.outEra }) ∧
    (1 ≤ s.inLen.toNat → s.inLen.toNat ≤ s.params.capIn → ¬ TermUnit (s.unitNat (s.inLen.toNat - 1)) →
      ∃ t, exec .decTerm s = .next t ∧
        t = { s with
              errInfo := BitVec.ofNat 32 (s.unitNat (s.inLen.toNat - 1) + 2 * 65536), outLen := 0#32,
              state := .error, outEra := t.outEra }) ∧
    (1 ≤ s.inLen.toNat → s.inLen.toNat ≤ s.params.capIn → TermUnit (s.unitNat (s.inLen.toNat - 1)) →
      exec .decTerm s = .next
        { s with
          tb := BitVec.ofNat 4 (s.unitNat (s.inLen.toNat - 1) - 0x2400), i := 0, l := 0, state := .decRun })

/-- R123, R161: DEC_CHAR_BAD raises InvalidEncoding DATA carrying the unit; I, L, TB and OUT_BUF keep their values. -/
def Obligations.DecCharBadRaisesData : Prop :=
  ∀ s : State, s.state = .decRun → s.i + 1 < s.inLen.toNat → s.i < s.params.capIn → ¬ DataUnit (s.unitNat s.i) →
    ∃ t, exec .decCharBad s = .next t ∧
      t = { s with
            errInfo := BitVec.ofNat 32 (s.unitNat s.i + 3 * 65536), outLen := 0#32, state := .error,
            outEra := t.outEra }

/-- R122, R124: DEC_PLACE_IN. Words that EXTEND adds start at 0, the word wi gains `p << (17 - o)`, and every other
entry and everything but I and L is unchanged. -/
def Obligations.DecPlaceInOrsTheGroup : Prop :=
  ∀ (s : State) (p wi o : Nat), s.state = .decRun → s.i + 1 < s.inLen.toNat → s.i < s.params.capIn →
    DataUnit (s.unitNat s.i) → p = groupNat (s.unitNat s.i) → wi = 15 * s.i / 32 → o = (15 * s.i) % 32 →
    o ≤ 17 → wi < s.params.capOut →
    ∃ t, exec .decPlaceIn s = .next t ∧
      t = { s with i := s.i + 1, l := max s.l (wi + 1), outBuf := t.outBuf } ∧
      p * 2 ^ (17 - o) < 2 ^ 32 ∧
      ∀ k, t.outEntry k = (if s.l ≤ k ∧ k ≤ wi then 0#32 else s.outEntry k)
        ||| (if k = wi then BitVec.ofNat 32 (p * 2 ^ (17 - o)) else 0#32)

/-- R122, R125: DEC_PLACE_STRADDLE. Words that EXTEND adds start at 0, the words wi and wi + 1 gain `p >> (o - 17)`
and `(p << (49 - o)) & MASK32`, and every other entry and everything but I and L is unchanged. -/
def Obligations.DecPlaceStraddleOrsBothParts : Prop :=
  ∀ (s : State) (p wi o : Nat), s.state = .decRun → s.i + 1 < s.inLen.toNat → s.i < s.params.capIn →
    DataUnit (s.unitNat s.i) → p = groupNat (s.unitNat s.i) → wi = 15 * s.i / 32 → o = (15 * s.i) % 32 →
    17 < o → wi + 1 < s.params.capOut →
    ∃ t, exec .decPlaceStraddle s = .next t ∧
      t = { s with i := s.i + 1, l := max s.l (wi + 2), outBuf := t.outBuf } ∧
      ∀ k, t.outEntry k = (if s.l ≤ k ∧ k ≤ wi + 1 then 0#32 else s.outEntry k)
        ||| (if k = wi then BitVec.ofNat 32 (p / 2 ^ (o - 17))
          else if k = wi + 1 then BitVec.ofNat 32 ((p * 2 ^ (49 - o)) % 2 ^ 32)
          else 0#32)

/-- R122: from a state of a run, a placement makes `out` cover exactly the words of the units placed, so EXTEND adds
at most one entry. -/
def Obligations.PlacementExtendsByAtMostOne : Prop :=
  ∀ (s t : State) (i : Instr), s.Inv → (i = .decPlaceIn ∨ i = .decPlaceStraddle) → exec i s = .next t →
    s.l = ceilDiv (15 * s.i) 32 ∧ t.l = ceilDiv (15 * t.i) 32 ∧ s.l ≤ t.l ∧ t.l ≤ s.l + 1

/-- R126: DEC_TRIM drops the last word where TB < 15, keeps all where TB = 15, does as EMPTY_TRIM says where there is
none, and completes; OUT_BUF is not cleared. -/
def Obligations.DecTrimDropsThePaddingWord : Prop :=
  ∀ s : State, s.state = .decRun → s.i + 1 = s.inLen.toNat →
    (s.tb.toNat < 15 → s.l = 0 → s.params.emptyTrim = .fault → exec .decTrim s = .fault .emptyTrim) ∧
    (¬ (s.tb.toNat < 15 ∧ s.l = 0 ∧ s.params.emptyTrim = .fault) → ∃ (t : State) (n : Nat),
      exec .decTrim s = .next t ∧
      t = { s with l := n, outLen := t.outLen, state := .done, outEra := t.outEra } ∧
      n = (if s.tb.toNat < 15 then s.l - 1 else s.l) ∧
      (n < 2 ^ 32 → t.outLen.toNat = n))

/-- R127, R188: a whole DECODE of M valid units takes M + 1 engine steps and ends in DONE with the length of R127 and
the bits of the units in stream order (R51). This is the engine alone (`inputs = []`, log 3);
EveryInterleavingRunsTheSameOperation carries it to every interleaving. -/
def Obligations.DecodeCompletesWithTheWords : Prop :=
  ∀ (s : State) (k n : Nat), s.Inv → s.state = .decTerm → s.inputs = [] → s.inLen.toNat = k + 1 →
    TermUnit (s.unitNat k) → n = s.unitNat k - 0x2400 → (∀ j, j < k → DataUnit (s.unitNat j)) →
    (n = 15 ∨ 0 < k ∨ s.params.emptyTrim = .noop) →
    (∀ m, m ≤ k + 1 → ∃ u : State, core.run m s = .next u ∧ u.busy = true) ∧
    ∃ t : State, core.run (k + 2) s = .next t ∧ t.state = .done ∧
      t.outLen.toNat = (if n < 15 then ceilDiv (15 * k) 32 - 1 else ceilDiv (15 * k) 32) ∧
      (∀ x, x < 32 * t.outLen.toNat → t.outBit x = (decide (x < 15 * k) && s.unitBit x)) ∧
      t.errInfo = s.errInfo ∧ t.inLen = s.inLen ∧ t.inBuf = s.inBuf

/-- R162, R163, R188: a DECODE whose last unit is a terminator and whose first invalid data unit is at index j takes
j + 2 engine steps, busy before the last, and ends in ERROR carrying that unit, with OUT_LEN 0 and the input
unchanged. This is the engine alone (`inputs = []`, log 3); EveryInterleavingRunsTheSameOperation carries it to every
interleaving. -/
def Obligations.DecodeReportsTheFirstInvalidUnit : Prop :=
  ∀ (s : State) (k j : Nat), s.Inv → s.state = .decTerm → s.inputs = [] → s.inLen.toNat = k + 1 →
    TermUnit (s.unitNat k) → j < k → (∀ x, x < j → DataUnit (s.unitNat x)) → ¬ DataUnit (s.unitNat j) →
    (∀ m, m ≤ j + 1 → ∃ u : State, core.run m s = .next u ∧ u.busy = true) ∧
    ∃ t : State, core.run (j + 2) s = .next t ∧ t.state = .error ∧
      t.errInfo = BitVec.ofNat 32 (s.unitNat j + 3 * 65536) ∧ t.outLen = 0#32 ∧
      t.inLen = s.inLen ∧ t.inBuf = s.inBuf

/-- R128: the round trip. ENCODE of N words, a state `d` whose IN_BUF holds the result, and DECODE there give the
words back. That the encoded string fits IN_BUF and its length fits the 32-bit IN_LEN are R128's unstated premises
(R30, R140). Each operation is the engine alone (`inputs = []`, log 3); EveryInterleavingRunsTheSameOperation carries
it to every interleaving. -/
def Obligations.RoundTripGivesTheWordsBack : Prop :=
  ∀ (s d : State) (k : Nat), s.Inv → s.busy = false → s.inputs = [] → s.inLen.toNat ≤ s.params.capIn →
    k = ceilDiv (32 * s.inLen.toNat) 15 → k + 1 ≤ s.params.capIn → k + 1 < 2 ^ 32 →
    ∃ e t : State, exec .encode s = .next e ∧ core.run (k + 1) e = .next t ∧ t.state = .done ∧
      (d.Inv → d.busy = false → d.inputs = [] → d.params = t.params → d.inLen = t.outLen →
        (∀ j, j < t.outLen.toNat → d.inEntry j = t.outEntry j) →
        ∃ f r : State, exec .decode d = .next f ∧ core.run (t.outLen.toNat + 1) f = .next r ∧ r.state = .done ∧
          r.outLen = s.inLen ∧ ∀ j, j < s.inLen.toNat → r.outEntry j = s.inEntry j)

/-! ## Whole-machine rules -/

/-- R57, R188, R190: whatever host accesses, engine turns and resets are still to come (log 3), a running operation
ends, in DONE or ERROR where no reset falls in between, and then `wait` (R83) stops. The engine takes at most the steps
of the longest operation on an input of its length. EMPTY_TRIM = NOOP leaves out the one model fault (R126). -/
def Obligations.EveryOperationEnds : Prop :=
  ∀ s : State, s.Inv → s.busy = true → s.params.emptyTrim = .noop →
    (∀ e ∈ s.inputs, e = .reset ∨ e.EngineOrAccess) →
    ∃ (k a : Nat) (t : State), k = a + othersIn (s.inputs.take k) ∧ a ≤ ceilDiv (32 * s.inLen.toNat) 15 + 1 ∧
      (∀ m, m < k → ∃ u : State, core.run m s = .next u ∧ u.busy = true) ∧ core.run k s = .next t ∧
      t.busy = false ∧ waits (t.regValue 1) = false ∧
      ((∀ e ∈ s.inputs, e ≠ .reset) → t.state = .done ∨ t.state = .error)

/-- R57, R141, R185: host accesses that fall between the steps of a running operation do not change it. After m events,
BUSY = 1 before each, the state is the one that as many engine turns as there were among them reach alone, but for the
report of refused CMD writes, the value a read returned and the events left (log 3). -/
def Obligations.EveryInterleavingRunsTheSameOperation : Prop :=
  ∀ (s t : State) (m : Nat), (∀ e ∈ s.inputs, e.EngineOrAccess) →
    (∀ j, j < m → ∃ u : State, core.run j s = .next u ∧ u.busy = true) → core.run m s = .next t →
    ∃ (a : Nat) (u : State), a + othersIn (s.inputs.take m) = m ∧
      core.run a { s with inputs := [] } = .next u ∧ t.SameButForHost u

/-- R30, R147, R185: no event but reset changes IN_LEN or IN_BUF while BUSY = 1. -/
def Obligations.BusyFreezesTheInput : Prop :=
  ∀ s t : State, s.busy = true → ¬ s.ResetNext → step s = .next t → t.inLen = s.inLen ∧ t.inBuf = s.inBuf

/-- R23, R150: no host access, mapper operand or code unit changes OUT_BUF. -/
def Obligations.OnlyTheEngineWritesOutBuf : Prop :=
  ∀ (s t : State) (r : Raw) (rest : List Event), s.inputs = .issue r :: rest → r.format ≠ .engineStep →
    step s = .next t → t.outBuf = s.outBuf

/-- R20, R140, R182: an operation starts only by an accepted command. -/
def Obligations.OnlyAnAcceptedCommandStarts : Prop :=
  ∀ s t : State, s.busy = false → step s = .next t → t.busy = true → s.CommandAccepted

/-- R165: ERROR and ERR_INFO stay until an accepted CMD write or a reset, either of which clears ERR_INFO. -/
def Obligations.ErrorStaysUntilCommandOrReset : Prop :=
  ∀ s t : State, s.state = .error → step s = .next t →
    (¬ s.CommandAccepted → ¬ s.ResetNext → t.state = .error ∧ t.errInfo = s.errInfo) ∧
    (s.CommandAccepted → t.state ≠ .error ∧ t.errInfo = 0#32) ∧
    (s.ResetNext → t.state = .idle ∧ t.errInfo = 0#32)

/-- R58, R144, R187, D8: a DONE result stays until an accepted CMD write or a reset: STATE, OUT_LEN, ERR_INFO, the
entries of the result and what a host read of one returns. Either of those ends it with OUT_LEN = 0. -/
def Obligations.DoneResultStaysUntilCommandOrReset : Prop :=
  ∀ s t : State, s.state = .done → step s = .next t →
    (¬ s.CommandAccepted → ¬ s.ResetNext →
      t.state = .done ∧ t.outLen = s.outLen ∧ t.errInfo = s.errInfo ∧
      ∀ k, k < s.outLen.toNat → t.outEntry k = s.outEntry k ∧ t.outHostValue k = s.outHostValue k) ∧
    (s.CommandAccepted → t.busy = true ∧ t.outLen = 0#32) ∧
    (s.ResetNext → t.state = .idle ∧ t.outLen = 0#32)

/-- R29: CMD_ERR and CMD_CAUSE are written by CMD writes and reset alone: set by a refused one, which leaves STATE,
and cleared by an accepted one. -/
def Obligations.CmdErrDescribesTheLastCmdWrite : Prop :=
  ∀ s t : State, step s = .next t →
    (¬ s.ResetNext → (∀ v, ¬ s.CmdWriteNext v) → t.cmdErr = s.cmdErr ∧ t.cmdCause = s.cmdCause) ∧
    (s.CommandAccepted → t.cmdErr = false ∧ t.cmdCause = .none) ∧
    (∀ v, s.CmdWriteNext v → ¬ s.CommandAccepted → t.cmdErr = true ∧ t.state = s.state ∧
      t.cmdCause = if s.busy then .busy
        else if v = 0x00000001#32 ∨ v = 0x00000002#32 then .length else .illegalOp)

/-- R163: no step leaves a running operation for ERROR with a result: OUT_LEN is 0 and the input is as it was. -/
def Obligations.ErrorEntryIsPrecise : Prop :=
  ∀ s t : State, s.state ≠ .error → step s = .next t → t.state = .error →
    t.outLen = 0#32 ∧ t.inLen = s.inLen ∧ t.inBuf = s.inBuf ∧ t.errKind ≠ 0#2 ∧ s.busy = true
end

