-- ==== Sys2Proof/Laws/Alphabet.lean ====
section
/-! SUPPORT. The mapper's functions over naturals, one lemma per function (40_alphabet_mapper.md R90 to R93). -/

namespace Sys2Proof

open Sys2Proof.Machine

theorem isData_iff (u : CodeUnit) : isData u = true ↔ DataUnit u.toNat := by
  unfold isData classOf DataUnit
  split_ifs <;> simp <;> omega

theorem tochar_toNat (p : Group) :
    (tochar p).toNat = if p.toNat ≤ 6581 then 0x3400 + p.toNat
      else if p.toNat ≤ 27483 then 0x4E00 + (p.toNat - 6582) else 0xE000 + (p.toNat - 27484) := by
  have hp := p.isLt
  unfold tochar
  split_ifs <;> simp [BitVec.toNat_sub] <;> omega

/-- FROMCHAR of a data unit is the group of its row. -/
theorem fromchar_of_data {c : CodeUnit} (h : DataUnit c.toNat) :
    ∃ p, fromchar c = some p ∧ p.toNat = groupNat c.toNat := by
  have hc := c.isLt
  unfold DataUnit at h
  unfold fromchar groupNat
  split_ifs <;> first | omega | (refine ⟨_, rfl, ?_⟩; simp [BitVec.toNat_sub]; omega)

theorem fromchar_of_not_data {c : CodeUnit} (h : ¬ DataUnit c.toNat) : fromchar c = none := by
  unfold DataUnit at h
  unfold fromchar
  rw [if_neg (by omega), if_neg (by omega), if_neg (by omega)]

theorem toterm_toNat (n : TailCount) : (toterm n).toNat = 0x2400 + n.toNat := by
  have hn := n.isLt
  unfold toterm
  simp
  omega

theorem fromterm_of_term {t : CodeUnit} (h : TermUnit t.toNat) :
    ∃ n, fromterm t = some n ∧ n.toNat = t.toNat - 0x2400 := by
  have ht := t.isLt
  unfold TermUnit at h
  unfold fromterm
  rw [if_pos h]
  exact ⟨_, rfl, by simp [BitVec.toNat_sub]; omega⟩

theorem fromterm_of_not_term {t : CodeUnit} (h : ¬ TermUnit t.toNat) : fromterm t = none := if_neg h

/-- The number of a unit of the input is the number of the code unit read there (R52). -/
theorem Machine.State.unitNat_eq (s : State) (k : Nat) : s.unitNat k = (s.unitAt k).toNat := by
  simp [State.unitNat, State.unitAt]

end Sys2Proof
end

