-- ==== Sys2Proof/Laws/Decode.lean ====
section
/-! SUPPORT. What the decoder can give. -/

namespace Sys2Proof

/-- The eight selectors, and no other, select an engine step (R84). -/
theorem decodeSelector_eq_ok {b : BitVec 8} {i : Instr} :
    decodeSelector b = .ok i ↔
      (i = .encDataIn ∧ b = selEncDataIn) ∨ (i = .encDataStraddle ∧ b = selEncDataStraddle) ∨
      (i = .encTerm ∧ b = selEncTerm) ∨ (i = .decTerm ∧ b = selDecTerm) ∨ (i = .decPlaceIn ∧ b = selDecPlaceIn) ∨
      (i = .decPlaceStraddle ∧ b = selDecPlaceStraddle) ∨ (i = .decTrim ∧ b = selDecTrim) ∨
      (i = .decCharBad ∧ b = selDecCharBad) := by
  constructor
  · intro h
    unfold decodeSelector at h
    split_ifs at h <;> simp_all
  · rintro (⟨rfl, rfl⟩ | ⟨rfl, rfl⟩ | ⟨rfl, rfl⟩ | ⟨rfl, rfl⟩ | ⟨rfl, rfl⟩ | ⟨rfl, rfl⟩ | ⟨rfl, rfl⟩ | ⟨rfl, rfl⟩) <;> rfl

/-- An instruction decodes from a raw form of its row's format. -/
theorem format_of_decode {r : Raw} {i : Instr} (h : decode r = .ok i) : i.format = r.format := by
  cases r with
  | access sp w k d =>
    simp only [decode, decodeAccess, decodeCmd, Except.ok.injEq] at h
    split_ifs at h <;> subst h <;> rfl
  | selector sel =>
    rcases decodeSelector_eq_ok.mp h with ⟨rfl, -⟩ | ⟨rfl, -⟩ | ⟨rfl, -⟩ | ⟨rfl, -⟩ | ⟨rfl, -⟩ | ⟨rfl, -⟩ | ⟨rfl, -⟩ |
      ⟨rfl, -⟩ <;> rfl
  | mapper f arg =>
    cases f <;> simp only [decode, decodeMapper] at h
    · split_ifs at h
      cases h
      rfl
    · cases h
      rfl
    · split_ifs at h
      cases h
      rfl
    · cases h
      rfl
  | unit u =>
    simp only [decode, decodeUnit, Except.ok.injEq] at h
    split at h <;> subst h <;> rfl

end Sys2Proof
end

