-- ==== Sys2Proof/Laws/Memory.lean ====
section
/-! SUPPORT. The laws of the two buffers as data: a read after a write, and the canonical form that every memory
operation keeps. -/

namespace Sys2Proof.Machine

open Sys2Proof

@[simp] theorem Memory.find_nil (k : Nat) : Memory.find [] k = none := rfl

/-- The whole of what a write does to the entries listed. -/
theorem Memory.find_put (m : Memory) (k j : Nat) (v : Word) :
    (m.put k v).find j = if j = k then some v else m.find j := by
  induction m with
  | nil => simp only [Memory.put, Memory.find]
  | cons c m ih =>
    obtain ⟨a, x⟩ := c
    rw [Memory.put]
    split
    · simp only [Memory.find]
    · split
      · subst_vars
        simp only [Memory.find]
        split <;> rfl
      · rename_i hka
        simp only [Memory.find, ih]
        by_cases hja : j = a
        · subst hja
          simp [Ne.symm hka]
        · simp [hja]

@[simp] theorem Memory.find_put_same (m : Memory) (k : Nat) (v : Word) : (m.put k v).find k = some v := by
  simp [Memory.find_put]

theorem Memory.find_put_other (m : Memory) {k j : Nat} (v : Word) (h : j ≠ k) :
    (m.put k v).find j = m.find j := by
  simp [Memory.find_put, h]

/-- The canonical form, spelled out. -/
theorem Memory.wf_iff (cap : Nat) (m : Memory) :
    m.wf cap = true ↔ m.Pairwise (fun a b => a.1 < b.1) ∧ ∀ c ∈ m, c.1 < cap := by
  simp [Memory.wf]

/-- Every entry of the list after a write is the one written or was there before. -/
theorem Memory.mem_put {m : Memory} {k : Nat} {v : Word} {c : Nat × Word} (h : c ∈ m.put k v) :
    c = (k, v) ∨ c ∈ m := by
  induction m with
  | nil => simpa [Memory.put] using h
  | cons d m ih =>
    obtain ⟨a, x⟩ := d
    simp only [Memory.put] at h
    split at h
    · simpa using h
    · split at h
      · rcases List.mem_cons.mp h with rfl | h
        · exact .inl rfl
        · exact .inr (List.mem_cons_of_mem _ h)
      · rcases List.mem_cons.mp h with rfl | h
        · exact .inr List.mem_cons_self
        · rcases ih h with h | h
          · exact .inl h
          · exact .inr (List.mem_cons_of_mem _ h)

theorem Memory.pairwise_put {m : Memory} (k : Nat) (v : Word) (h : m.Pairwise (fun a b => a.1 < b.1)) :
    (m.put k v).Pairwise (fun a b => a.1 < b.1) := by
  induction m with
  | nil => simp [Memory.put]
  | cons d m ih =>
    obtain ⟨a, x⟩ := d
    obtain ⟨hd, hm⟩ := List.pairwise_cons.mp h
    simp only [Memory.put]
    split
    · rename_i hka
      refine List.pairwise_cons.mpr ⟨fun c hc => ?_, h⟩
      rcases List.mem_cons.mp hc with rfl | hc
      · exact hka
      · exact Nat.lt_trans hka (hd c hc)
    · split
      · subst_vars
        exact List.pairwise_cons.mpr ⟨hd, hm⟩
      · refine List.pairwise_cons.mpr ⟨fun c hc => ?_, ih hm⟩
        rcases Memory.mem_put hc with rfl | hc
        · show a < k
          omega
        · exact hd c hc

/-- A write below the capacity keeps the canonical form. -/
theorem Memory.wf_put {cap : Nat} {m : Memory} {k : Nat} (v : Word) (h : m.wf cap = true) (hk : k < cap) :
    (m.put k v).wf cap = true := by
  rw [Memory.wf_iff] at h ⊢
  refine ⟨Memory.pairwise_put k v h.1, fun c hc => ?_⟩
  rcases Memory.mem_put hc with rfl | hc
  · exact hk
  · exact h.2 c hc

theorem Memory.wf_nil (cap : Nat) : Memory.wf cap [] = true := rfl

/-- Reset's buffers are in canonical form. -/
theorem State.reset_wf : State.reset.inBuf.wf State.reset.params.capIn = true
    ∧ State.reset.outBuf.wf State.reset.params.capOut = true := ⟨rfl, rfl⟩

end Sys2Proof.Machine
end

