-- ==== Sys2Proof/Laws/State.lean ====
section
/-! SUPPORT. One lemma per field per named update of the state, true by rfl, so that no proof unfolds a record update. -/

namespace Sys2Proof.Machine

open Sys2Proof

variable (s : State)

/-! `raise` writes ERR_INFO, OUT_LEN and STATE, and begins an era (R161). -/

@[simp] theorem State.raise_params (kind : ErrKind) (cp : CodeUnit) : (s.raise kind cp).params = s.params := rfl
@[simp] theorem State.raise_state (kind : ErrKind) (cp : CodeUnit) : (s.raise kind cp).state = .error := rfl
@[simp] theorem State.raise_cmdErr (kind : ErrKind) (cp : CodeUnit) : (s.raise kind cp).cmdErr = s.cmdErr := rfl
@[simp] theorem State.raise_cmdCause (kind : ErrKind) (cp : CodeUnit) : (s.raise kind cp).cmdCause = s.cmdCause := rfl
@[simp] theorem State.raise_inLen (kind : ErrKind) (cp : CodeUnit) : (s.raise kind cp).inLen = s.inLen := rfl
@[simp] theorem State.raise_outLen (kind : ErrKind) (cp : CodeUnit) : (s.raise kind cp).outLen = 0#32 := rfl
@[simp] theorem State.raise_errInfo (kind : ErrKind) (cp : CodeUnit) : (s.raise kind cp).errInfo = errWord kind cp := rfl
@[simp] theorem State.raise_i (kind : ErrKind) (cp : CodeUnit) : (s.raise kind cp).i = s.i := rfl
@[simp] theorem State.raise_nb (kind : ErrKind) (cp : CodeUnit) : (s.raise kind cp).nb = s.nb := rfl
@[simp] theorem State.raise_oc (kind : ErrKind) (cp : CodeUnit) : (s.raise kind cp).oc = s.oc := rfl
@[simp] theorem State.raise_tb (kind : ErrKind) (cp : CodeUnit) : (s.raise kind cp).tb = s.tb := rfl
@[simp] theorem State.raise_l (kind : ErrKind) (cp : CodeUnit) : (s.raise kind cp).l = s.l := rfl
@[simp] theorem State.raise_inBuf (kind : ErrKind) (cp : CodeUnit) : (s.raise kind cp).inBuf = s.inBuf := rfl
@[simp] theorem State.raise_outBuf (kind : ErrKind) (cp : CodeUnit) : (s.raise kind cp).outBuf = s.outBuf := rfl
@[simp] theorem State.raise_inputs (kind : ErrKind) (cp : CodeUnit) : (s.raise kind cp).inputs = s.inputs := rfl
@[simp] theorem State.raise_returned (kind : ErrKind) (cp : CodeUnit) : (s.raise kind cp).returned = s.returned := rfl
@[simp] theorem State.raise_mapOut (kind : ErrKind) (cp : CodeUnit) : (s.raise kind cp).mapOut = s.mapOut := rfl
@[simp] theorem State.raise_unitOut (kind : ErrKind) (cp : CodeUnit) : (s.raise kind cp).unitOut = s.unitOut := rfl
@[simp] theorem State.raise_resets (kind : ErrKind) (cp : CodeUnit) : (s.raise kind cp).resets = s.resets := rfl
@[simp] theorem State.raise_outEra (kind : ErrKind) (cp : CodeUnit) : (s.raise kind cp).outEra = s.outEra + 1 := rfl

/-! REFUSE writes CMD_ERR and CMD_CAUSE (R144). -/

@[simp] theorem State.refuse_params (cause : CmdCause) : (s.refuse cause).params = s.params := rfl
@[simp] theorem State.refuse_state (cause : CmdCause) : (s.refuse cause).state = s.state := rfl
@[simp] theorem State.refuse_cmdErr (cause : CmdCause) : (s.refuse cause).cmdErr = true := rfl
@[simp] theorem State.refuse_cmdCause (cause : CmdCause) : (s.refuse cause).cmdCause = cause := rfl
@[simp] theorem State.refuse_inLen (cause : CmdCause) : (s.refuse cause).inLen = s.inLen := rfl
@[simp] theorem State.refuse_outLen (cause : CmdCause) : (s.refuse cause).outLen = s.outLen := rfl
@[simp] theorem State.refuse_errInfo (cause : CmdCause) : (s.refuse cause).errInfo = s.errInfo := rfl
@[simp] theorem State.refuse_i (cause : CmdCause) : (s.refuse cause).i = s.i := rfl
@[simp] theorem State.refuse_nb (cause : CmdCause) : (s.refuse cause).nb = s.nb := rfl
@[simp] theorem State.refuse_oc (cause : CmdCause) : (s.refuse cause).oc = s.oc := rfl
@[simp] theorem State.refuse_tb (cause : CmdCause) : (s.refuse cause).tb = s.tb := rfl
@[simp] theorem State.refuse_l (cause : CmdCause) : (s.refuse cause).l = s.l := rfl
@[simp] theorem State.refuse_inBuf (cause : CmdCause) : (s.refuse cause).inBuf = s.inBuf := rfl
@[simp] theorem State.refuse_outBuf (cause : CmdCause) : (s.refuse cause).outBuf = s.outBuf := rfl
@[simp] theorem State.refuse_inputs (cause : CmdCause) : (s.refuse cause).inputs = s.inputs := rfl
@[simp] theorem State.refuse_returned (cause : CmdCause) : (s.refuse cause).returned = s.returned := rfl
@[simp] theorem State.refuse_mapOut (cause : CmdCause) : (s.refuse cause).mapOut = s.mapOut := rfl
@[simp] theorem State.refuse_unitOut (cause : CmdCause) : (s.refuse cause).unitOut = s.unitOut := rfl
@[simp] theorem State.refuse_resets (cause : CmdCause) : (s.refuse cause).resets = s.resets := rfl
@[simp] theorem State.refuse_outEra (cause : CmdCause) : (s.refuse cause).outEra = s.outEra := rfl

/-! What an accepted command clears (R142, R143). -/

@[simp] theorem State.accept_params : s.accept.params = s.params := rfl
@[simp] theorem State.accept_state : s.accept.state = s.state := rfl
@[simp] theorem State.accept_cmdErr : s.accept.cmdErr = false := rfl
@[simp] theorem State.accept_cmdCause : s.accept.cmdCause = .none := rfl
@[simp] theorem State.accept_inLen : s.accept.inLen = s.inLen := rfl
@[simp] theorem State.accept_outLen : s.accept.outLen = 0#32 := rfl
@[simp] theorem State.accept_errInfo : s.accept.errInfo = 0#32 := rfl
@[simp] theorem State.accept_i : s.accept.i = s.i := rfl
@[simp] theorem State.accept_nb : s.accept.nb = s.nb := rfl
@[simp] theorem State.accept_oc : s.accept.oc = s.oc := rfl
@[simp] theorem State.accept_tb : s.accept.tb = s.tb := rfl
@[simp] theorem State.accept_l : s.accept.l = s.l := rfl
@[simp] theorem State.accept_inBuf : s.accept.inBuf = s.inBuf := rfl
@[simp] theorem State.accept_outBuf : s.accept.outBuf = s.outBuf := rfl
@[simp] theorem State.accept_inputs : s.accept.inputs = s.inputs := rfl
@[simp] theorem State.accept_returned : s.accept.returned = s.returned := rfl
@[simp] theorem State.accept_mapOut : s.accept.mapOut = s.mapOut := rfl
@[simp] theorem State.accept_unitOut : s.accept.unitOut = s.unitOut := rfl
@[simp] theorem State.accept_resets : s.accept.resets = s.resets := rfl
@[simp] theorem State.accept_outEra : s.accept.outEra = s.outEra + 1 := rfl

/-! START_ENCODE (R142). -/

@[simp] theorem State.startEncode_params : s.startEncode.params = s.params := rfl
@[simp] theorem State.startEncode_state : s.startEncode.state = .encRun := rfl
@[simp] theorem State.startEncode_cmdErr : s.startEncode.cmdErr = false := rfl
@[simp] theorem State.startEncode_cmdCause : s.startEncode.cmdCause = .none := rfl
@[simp] theorem State.startEncode_inLen : s.startEncode.inLen = s.inLen := rfl
@[simp] theorem State.startEncode_outLen : s.startEncode.outLen = 0#32 := rfl
@[simp] theorem State.startEncode_errInfo : s.startEncode.errInfo = 0#32 := rfl
@[simp] theorem State.startEncode_i : s.startEncode.i = 0 := rfl
@[simp] theorem State.startEncode_nb : s.startEncode.nb = 32 * s.inLen.toNat := rfl
@[simp] theorem State.startEncode_oc : s.startEncode.oc = 0 := rfl
@[simp] theorem State.startEncode_tb : s.startEncode.tb = s.tb := rfl
@[simp] theorem State.startEncode_l : s.startEncode.l = s.l := rfl
@[simp] theorem State.startEncode_inBuf : s.startEncode.inBuf = s.inBuf := rfl
@[simp] theorem State.startEncode_outBuf : s.startEncode.outBuf = s.outBuf := rfl
@[simp] theorem State.startEncode_inputs : s.startEncode.inputs = s.inputs := rfl
@[simp] theorem State.startEncode_returned : s.startEncode.returned = s.returned := rfl
@[simp] theorem State.startEncode_mapOut : s.startEncode.mapOut = s.mapOut := rfl
@[simp] theorem State.startEncode_unitOut : s.startEncode.unitOut = s.unitOut := rfl
@[simp] theorem State.startEncode_resets : s.startEncode.resets = s.resets := rfl
@[simp] theorem State.startEncode_outEra : s.startEncode.outEra = s.outEra + 1 := rfl

/-! START_DECODE (R143). -/

@[simp] theorem State.startDecode_params : s.startDecode.params = s.params := rfl
@[simp] theorem State.startDecode_state : s.startDecode.state = .decTerm := rfl
@[simp] theorem State.startDecode_cmdErr : s.startDecode.cmdErr = false := rfl
@[simp] theorem State.startDecode_cmdCause : s.startDecode.cmdCause = .none := rfl
@[simp] theorem State.startDecode_inLen : s.startDecode.inLen = s.inLen := rfl
@[simp] theorem State.startDecode_outLen : s.startDecode.outLen = 0#32 := rfl
@[simp] theorem State.startDecode_errInfo : s.startDecode.errInfo = 0#32 := rfl
@[simp] theorem State.startDecode_i : s.startDecode.i = s.i := rfl
@[simp] theorem State.startDecode_nb : s.startDecode.nb = s.nb := rfl
@[simp] theorem State.startDecode_oc : s.startDecode.oc = s.oc := rfl
@[simp] theorem State.startDecode_tb : s.startDecode.tb = s.tb := rfl
@[simp] theorem State.startDecode_l : s.startDecode.l = s.l := rfl
@[simp] theorem State.startDecode_inBuf : s.startDecode.inBuf = s.inBuf := rfl
@[simp] theorem State.startDecode_outBuf : s.startDecode.outBuf = s.outBuf := rfl
@[simp] theorem State.startDecode_inputs : s.startDecode.inputs = s.inputs := rfl
@[simp] theorem State.startDecode_returned : s.startDecode.returned = s.returned := rfl
@[simp] theorem State.startDecode_mapOut : s.startDecode.mapOut = s.mapOut := rfl
@[simp] theorem State.startDecode_unitOut : s.startDecode.unitOut = s.unitOut := rfl
@[simp] theorem State.startDecode_resets : s.startDecode.resets = s.resets := rfl
@[simp] theorem State.startDecode_outEra : s.startDecode.outEra = s.outEra + 1 := rfl

/-! A host read writes the model's line `returned` and nothing else (R145). -/

@[simp] theorem State.hostReturn_params (v : Word) : (s.hostReturn v).params = s.params := rfl
@[simp] theorem State.hostReturn_state (v : Word) : (s.hostReturn v).state = s.state := rfl
@[simp] theorem State.hostReturn_cmdErr (v : Word) : (s.hostReturn v).cmdErr = s.cmdErr := rfl
@[simp] theorem State.hostReturn_cmdCause (v : Word) : (s.hostReturn v).cmdCause = s.cmdCause := rfl
@[simp] theorem State.hostReturn_inLen (v : Word) : (s.hostReturn v).inLen = s.inLen := rfl
@[simp] theorem State.hostReturn_outLen (v : Word) : (s.hostReturn v).outLen = s.outLen := rfl
@[simp] theorem State.hostReturn_errInfo (v : Word) : (s.hostReturn v).errInfo = s.errInfo := rfl
@[simp] theorem State.hostReturn_i (v : Word) : (s.hostReturn v).i = s.i := rfl
@[simp] theorem State.hostReturn_nb (v : Word) : (s.hostReturn v).nb = s.nb := rfl
@[simp] theorem State.hostReturn_oc (v : Word) : (s.hostReturn v).oc = s.oc := rfl
@[simp] theorem State.hostReturn_tb (v : Word) : (s.hostReturn v).tb = s.tb := rfl
@[simp] theorem State.hostReturn_l (v : Word) : (s.hostReturn v).l = s.l := rfl
@[simp] theorem State.hostReturn_inBuf (v : Word) : (s.hostReturn v).inBuf = s.inBuf := rfl
@[simp] theorem State.hostReturn_outBuf (v : Word) : (s.hostReturn v).outBuf = s.outBuf := rfl
@[simp] theorem State.hostReturn_inputs (v : Word) : (s.hostReturn v).inputs = s.inputs := rfl
@[simp] theorem State.hostReturn_returned (v : Word) : (s.hostReturn v).returned = some v := rfl
@[simp] theorem State.hostReturn_mapOut (v : Word) : (s.hostReturn v).mapOut = s.mapOut := rfl
@[simp] theorem State.hostReturn_unitOut (v : Word) : (s.hostReturn v).unitOut = s.unitOut := rfl
@[simp] theorem State.hostReturn_resets (v : Word) : (s.hostReturn v).resets = s.resets := rfl
@[simp] theorem State.hostReturn_outEra (v : Word) : (s.hostReturn v).outEra = s.outEra := rfl

/-! The reset event (R180). -/

@[simp] theorem State.afterReset_params : s.afterReset.params = s.params := rfl
@[simp] theorem State.afterReset_state : s.afterReset.state = .idle := rfl
@[simp] theorem State.afterReset_cmdErr : s.afterReset.cmdErr = false := rfl
@[simp] theorem State.afterReset_cmdCause : s.afterReset.cmdCause = .none := rfl
@[simp] theorem State.afterReset_inLen : s.afterReset.inLen = 0#32 := rfl
@[simp] theorem State.afterReset_outLen : s.afterReset.outLen = 0#32 := rfl
@[simp] theorem State.afterReset_errInfo : s.afterReset.errInfo = 0#32 := rfl
@[simp] theorem State.afterReset_i : s.afterReset.i = 0 := rfl
@[simp] theorem State.afterReset_nb : s.afterReset.nb = 0 := rfl
@[simp] theorem State.afterReset_oc : s.afterReset.oc = 0 := rfl
@[simp] theorem State.afterReset_tb : s.afterReset.tb = 0#4 := rfl
@[simp] theorem State.afterReset_l : s.afterReset.l = 0 := rfl
@[simp] theorem State.afterReset_inBuf : s.afterReset.inBuf = [] := rfl
@[simp] theorem State.afterReset_outBuf : s.afterReset.outBuf = [] := rfl
@[simp] theorem State.afterReset_inputs : s.afterReset.inputs = s.inputs := rfl
@[simp] theorem State.afterReset_returned : s.afterReset.returned = none := rfl
@[simp] theorem State.afterReset_mapOut : s.afterReset.mapOut = none := rfl
@[simp] theorem State.afterReset_unitOut : s.afterReset.unitOut = none := rfl
@[simp] theorem State.afterReset_resets : s.afterReset.resets = s.resets + 1 := rfl
@[simp] theorem State.afterReset_outEra : s.afterReset.outEra = s.outEra + 1 := rfl

end Sys2Proof.Machine
end

