-- ==== Sys2Proof/Laws/Ops.lean ====
section
/-! SUPPORT. For each shared operation, one lemma that says everything it can do. -/

namespace Sys2Proof.Machine

open Sys2Proof

/-! ## Pseudocode in order -/

/-- A statement followed by the rest of a step completes when both do. -/
theorem Except.bind_eq_ok {α β : Type} {x : Except Fault α} {f : α → Except Fault β} {b : β} :
    (x >>= f) = .ok b ↔ ∃ a, x = .ok a ∧ f a = .ok b := by
  cases x <;> simp [bind, Except.bind]

/-! ## Reads -/

theorem State.inRead_eq_ok {s : State} {k : Nat} {w : Word} :
    s.inRead k = .ok w ↔ k < s.params.capIn ∧ s.inEntry k = w := by
  unfold State.inRead
  split <;> simp [*]

theorem State.inRead_of_lt {s : State} {k : Nat} (h : k < s.params.capIn) : s.inRead k = .ok (s.inEntry k) :=
  State.inRead_eq_ok.mpr ⟨h, rfl⟩

theorem State.unitRead_eq_ok {s : State} {k : Nat} {u : CodeUnit} :
    s.unitRead k = .ok u ↔ k < s.params.capIn ∧ s.unitAt k = u := by
  unfold State.unitRead State.inRead State.unitAt
  split <;> simp [*, Except.map]

theorem State.unitRead_of_lt {s : State} {k : Nat} (h : k < s.params.capIn) : s.unitRead k = .ok (s.unitAt k) :=
  State.unitRead_eq_ok.mpr ⟨h, rfl⟩

/-- The zero-padded read answers 0 past the input and the entry within it (R53). -/
theorem State.wordRead_eq_ok {s : State} {k : Nat} {w : Word} :
    s.wordRead k = .ok w ↔
      (k < s.inLen.toNat ∧ k < s.params.capIn ∧ s.inEntry k = w) ∨ (s.inLen.toNat ≤ k ∧ 0#32 = w) := by
  unfold State.wordRead
  split <;> rename_i h
  · simp [State.inRead_eq_ok, h, Nat.not_le.mpr h]
  · simp [h, Nat.le_of_not_lt h]

theorem State.outRead_eq_ok {s : State} {k : Nat} {w : Word} :
    s.outRead k = .ok w ↔ k < s.params.capOut ∧ s.outEntry k = w := by
  unfold State.outRead
  split <;> simp [*]

/-! ## Writes -/

theorem State.outWrite_eq_ok {s t : State} {k : Nat} {v : Word} :
    s.outWrite k v = .ok t ↔ k < s.params.capOut ∧ { s with outBuf := s.outBuf.put k v } = t := by
  unfold State.outWrite
  split <;> simp [*]

theorem State.outWrite_of_lt {s : State} {k : Nat} (v : Word) (h : k < s.params.capOut) :
    s.outWrite k v = .ok { s with outBuf := s.outBuf.put k v } :=
  State.outWrite_eq_ok.mpr ⟨h, rfl⟩

theorem State.outEntry_def (s : State) (k : Nat) :
    s.outEntry k = (s.outBuf.find k).getD (Config.freeOut s.outEra k) := rfl

theorem State.inEntry_def (s : State) (k : Nat) :
    s.inEntry k = (s.inBuf.find k).getD (Config.freeIn s.resets k) := rfl

/-- What an OUT_BUF write does to the entries, whatever other fields the record changes. -/
theorem State.outEntry_put {s t : State} {k : Nat} {v : Word} (hb : t.outBuf = s.outBuf.put k v)
    (he : t.outEra = s.outEra) (j : Nat) : t.outEntry j = if j = k then v else s.outEntry j := by
  simp only [State.outEntry_def, hb, he, Memory.find_put]
  split <;> rfl

/-- An OUT_BUF entry depends on the buffer and the era alone. -/
theorem State.outEntry_congr {s t : State} (hb : t.outBuf = s.outBuf) (he : t.outEra = s.outEra) (j : Nat) :
    t.outEntry j = s.outEntry j := by
  simp only [State.outEntry_def, hb, he]

/-- An IN_BUF entry depends on the buffer and the reset count alone. -/
theorem State.inEntry_congr {s t : State} (hb : t.inBuf = s.inBuf) (he : t.resets = s.resets) (j : Nat) :
    t.inEntry j = s.inEntry j := by
  simp only [State.inEntry_def, hb, he]

theorem State.unitAt_congr {s t : State} (hb : t.inBuf = s.inBuf) (he : t.resets = s.resets) (j : Nat) :
    t.unitAt j = s.unitAt j := by
  simp only [State.unitAt, State.inEntry_congr hb he]

/-- What one entry's read-or-write does: only that entry changes. -/
theorem State.outOr_eq_ok {s t : State} {k : Nat} {v : Word} :
    s.outOr k v = .ok t ↔
      k < s.params.capOut ∧ { s with outBuf := s.outBuf.put k (s.outEntry k ||| v) } = t := by
  unfold State.outOr State.outRead
  split <;> rename_i h
  · show s.outWrite k (s.outEntry k ||| v) = .ok t ↔ _
    rw [State.outWrite_eq_ok]
  · show (Except.error Fault.outBufRange : Except Fault State) = .ok t ↔ _
    simp [h]

/-- Everything `n` rounds of EXTEND's loop do: L grows by `n`, and the entries it passes become 0 (R122). -/
theorem State.extendBy_spec {s : State} (n : Nat) (h : 0 < n → s.l + n ≤ s.params.capOut) :
    ∃ m, s.extendBy n = .ok { s with l := s.l + n, outBuf := m } ∧
      (∀ j, m.find j = if s.l ≤ j ∧ j < s.l + n then some 0#32 else s.outBuf.find j) ∧
      (s.outBuf.wf s.params.capOut = true → m.wf s.params.capOut = true) := by
  induction n generalizing s with
  | zero =>
    refine ⟨s.outBuf, rfl, fun j => ?_, id⟩
    rw [if_neg (by omega)]
  | succ n ih =>
    have h := h (Nat.succ_pos n)
    have hl : s.l < s.params.capOut := by omega
    obtain ⟨m, hm, hf, hw⟩ :=
      ih (s := { s with outBuf := s.outBuf.put s.l 0#32, l := s.l + 1 })
        (fun _ => by show s.l + 1 + n ≤ s.params.capOut; omega)
    refine ⟨m, ?_, fun j => ?_, fun hwf => hw (Memory.wf_put 0#32 hwf hl)⟩
    · rw [State.extendBy, State.outWrite_of_lt 0#32 hl]
      show State.extendBy { s with outBuf := s.outBuf.put s.l 0#32, l := s.l + 1 } n = _
      rw [hm]
      show Except.ok { s with l := s.l + 1 + n, outBuf := m } = _
      rw [show s.l + (n + 1) = s.l + 1 + n by omega]
    · rw [hf j]
      show (if s.l + 1 ≤ j ∧ j < s.l + 1 + n then some 0#32 else (s.outBuf.put s.l 0#32).find j) = _
      rw [Memory.find_put]
      by_cases hj : j = s.l
      · rw [if_neg (by omega), if_pos hj, if_pos (by omega)]
      · rw [if_neg hj]
        by_cases hr : s.l + 1 ≤ j ∧ j < s.l + 1 + n
        · rw [if_pos hr, if_pos (by omega)]
        · rw [if_neg hr, if_neg (by omega)]

/-- EXTEND changes L and OUT_BUF alone. -/
theorem State.extendBy_frame {s t : State} {n : Nat} (h : s.extendBy n = .ok t) :
    t = { s with l := s.l + n, outBuf := t.outBuf } := by
  induction n generalizing s with
  | zero =>
    cases h
    rfl
  | succ n ih =>
    rw [State.extendBy, Except.bind_eq_ok] at h
    obtain ⟨a, ha, h⟩ := h
    obtain ⟨-, rfl⟩ := State.outWrite_eq_ok.mp ha
    have h := ih h
    rw [h]
    show { s with l := s.l + 1 + n, outBuf := t.outBuf } = { s with l := s.l + (n + 1), outBuf := t.outBuf }
    rw [show s.l + (n + 1) = s.l + 1 + n by omega]

/-- Everything EXTEND does: L becomes the greater of L and `j + 1`, and the entries added are 0 (R122). -/
theorem State.extend_spec {s : State} {j : Nat} (hj : j < s.params.capOut) :
    ∃ m, s.extend j = .ok { s with l := max s.l (j + 1), outBuf := m } ∧
      (∀ k, m.find k = if s.l ≤ k ∧ k ≤ j then some 0#32 else s.outBuf.find k) ∧
      (s.outBuf.wf s.params.capOut = true → m.wf s.params.capOut = true) := by
  obtain ⟨m, hm, hf, hw⟩ := State.extendBy_spec (s := s) (j + 1 - s.l) (by omega)
  refine ⟨m, ?_, fun k => ?_, hw⟩
  · rw [State.extend, hm, show s.l + (j + 1 - s.l) = max s.l (j + 1) by omega]
  · rw [hf k]
    by_cases h : s.l ≤ k ∧ k ≤ j
    · rw [if_pos h, if_pos (by omega)]
    · rw [if_neg h, if_neg (by omega)]

/-! ## Outcomes -/

theorem settle_eq_next {b : Except Fault State} {t : State} : settle b = .next t ↔ b = .ok t := by
  cases b <;> simp [settle]

theorem settle_eq_fault {b : Except Fault State} {f : Fault} : settle b = .fault f ↔ b = .error f := by
  cases b <;> simp [settle]

theorem settle_ne_refused {b : Except Fault State} {r : Refusal} : settle b ≠ .refused r := by
  cases b <;> simp [settle]

theorem whenSelected_of {sel : BitVec 8} {s : State} {b : Except Fault State} (h : s.selector = sel) :
    whenSelected sel s b = settle b := if_pos h

/-- An engine step answers a next state only where R84 selects it, and then the one its pseudocode gives. -/
theorem whenSelected_eq_next {sel : BitVec 8} {s t : State} {b : Except Fault State} :
    whenSelected sel s b = .next t ↔ s.selector = sel ∧ b = .ok t := by
  unfold whenSelected
  split <;> simp [*, settle_eq_next]

theorem whenSelected_eq_fault {sel : BitVec 8} {s : State} {b : Except Fault State} {f : Fault} :
    whenSelected sel s b = .fault f ↔ s.selector = sel ∧ b = .error f := by
  unfold whenSelected
  split <;> simp [*, settle_eq_fault]

/-! ## Commands and host writes -/

/-- A CMD write refuses with one cause, or starts the operation the value names (R140). -/
theorem State.cmdWrite_cases (s : State) (v : Word) :
    (∃ cause, cause ≠ .none ∧ s.cmdWrite v = s.refuse cause) ∨
    (s.busy = false ∧ s.inLen.toNat ≤ s.params.capIn ∧
      ((v = 0x00000001#32 ∧ s.cmdWrite v = s.startEncode) ∨ (v = 0x00000002#32 ∧ s.cmdWrite v = s.startDecode))) := by
  unfold State.cmdWrite
  split
  · exact .inl ⟨.busy, by decide, rfl⟩
  · rename_i hb
    have hb : s.busy = false := by simpa using hb
    split
    · rename_i hv
      split
      · exact .inl ⟨.length, by decide, rfl⟩
      · exact .inr ⟨hb, by omega, .inl ⟨hv, rfl⟩⟩
    · split
      · rename_i hv
        split
        · exact .inl ⟨.length, by decide, rfl⟩
        · exact .inr ⟨hb, by omega, .inr ⟨hv, rfl⟩⟩
      · exact .inl ⟨.illegalOp, by decide, rfl⟩

/-- A REG write is a CMD write, or stores IN_LEN while not busy, or is ignored (R146). -/
theorem State.regWrite_cases (s : State) (j : Nat) (v : Word) :
    (j = 0 ∧ s.regWrite j v = s.cmdWrite v) ∨ (s.busy = false ∧ s.regWrite j v = { s with inLen := v }) ∨
      s.regWrite j v = s := by
  unfold State.regWrite
  split
  · exact .inl ⟨rfl, rfl⟩
  · split
    · exact .inr (.inr rfl)
    · rename_i hb
      exact .inr (.inl ⟨by simpa using hb, rfl⟩)
  · exact .inr (.inr rfl)

/-- An IN_BUF write stores within CAP_IN while not busy, and is ignored otherwise (R147). -/
theorem State.inHostWrite_cases (s : State) (k : Nat) (v : Word) :
    (k < s.params.capIn ∧ s.busy = false ∧ s.inHostWrite k v = { s with inBuf := s.inBuf.put k v }) ∨
      s.inHostWrite k v = s := by
  unfold State.inHostWrite
  split
  · rename_i h
    exact .inl ⟨h.1, h.2, rfl⟩
  · exact .inr rfl

end Sys2Proof.Machine
end

