-- ==== Sys2Proof/Laws/Select.lean ====
section
/-! SUPPORT. When each engine step is the selected one (30_encoding.md R84), said once per step. -/

namespace Sys2Proof.Machine

open Sys2Proof

/-- The selector, with the eight selectors written as words. -/
theorem State.selector_eq (s : State) : s.selector =
    match s.state with
    | .idle => 0x00#8
    | .encRun => if s.nb ≤ s.i then 0x11#8 else if s.i % 32 ≤ 17 then 0x01#8 else 0x09#8
    | .decTerm => 0x02#8
    | .decRun =>
      if s.i + 1 < s.inLen.toNat then
        if isData (s.unitAt s.i) then (if (15 * s.i) % 32 ≤ 17 then 0x03#8 else 0x0B#8) else 0x23#8
      else if s.i + 1 = s.inLen.toNat then 0x13#8 else 0x3B#8
    | .done => 0x04#8
    | .error => 0x05#8 := rfl

theorem State.selector_encDataIn {s : State} :
    s.selector = selEncDataIn ↔ s.state = .encRun ∧ s.i < s.nb ∧ s.i % 32 ≤ 17 := by
  show s.selector = 0x01#8 ↔ _
  rw [State.selector_eq]
  cases s.state <;> simp <;> split_ifs <;> simp_all

theorem State.selector_encDataStraddle {s : State} :
    s.selector = selEncDataStraddle ↔ s.state = .encRun ∧ s.i < s.nb ∧ 17 < s.i % 32 := by
  show s.selector = 0x09#8 ↔ _
  rw [State.selector_eq]
  cases s.state <;> simp <;> split_ifs <;> simp_all

theorem State.selector_encTerm {s : State} : s.selector = selEncTerm ↔ s.state = .encRun ∧ s.nb ≤ s.i := by
  show s.selector = 0x11#8 ↔ _
  rw [State.selector_eq]
  cases s.state <;> simp <;> split_ifs <;> simp_all

theorem State.selector_decTerm {s : State} : s.selector = selDecTerm ↔ s.state = .decTerm := by
  show s.selector = 0x02#8 ↔ _
  rw [State.selector_eq]
  cases s.state <;> simp <;> split_ifs <;> simp_all

theorem State.selector_decCharBad {s : State} :
    s.selector = selDecCharBad ↔
      s.state = .decRun ∧ s.i + 1 < s.inLen.toNat ∧ isData (s.unitAt s.i) = false := by
  show s.selector = 0x23#8 ↔ _
  rw [State.selector_eq]
  cases s.state <;> simp <;> split_ifs <;> simp_all

theorem State.selector_decPlaceIn {s : State} :
    s.selector = selDecPlaceIn ↔
      s.state = .decRun ∧ s.i + 1 < s.inLen.toNat ∧ isData (s.unitAt s.i) = true ∧ (15 * s.i) % 32 ≤ 17 := by
  show s.selector = 0x03#8 ↔ _
  rw [State.selector_eq]
  cases s.state <;> simp <;> split_ifs <;> simp_all

theorem State.selector_decPlaceStraddle {s : State} :
    s.selector = selDecPlaceStraddle ↔
      s.state = .decRun ∧ s.i + 1 < s.inLen.toNat ∧ isData (s.unitAt s.i) = true ∧ 17 < (15 * s.i) % 32 := by
  show s.selector = 0x0B#8 ↔ _
  rw [State.selector_eq]
  cases s.state <;> simp <;> split_ifs <;> simp_all

theorem State.selector_decTrim {s : State} :
    s.selector = selDecTrim ↔ s.state = .decRun ∧ s.i + 1 = s.inLen.toNat := by
  show s.selector = 0x13#8 ↔ _
  rw [State.selector_eq]
  cases s.state <;> simp <;> split_ifs <;> simp_all <;> omega

/-- The enabled step is the one whose selector the state has. -/
theorem State.enabledStep_eq_some {s : State} {i : Instr} :
    s.enabledStep = some i ↔ decodeSelector s.selector = .ok i := by
  unfold State.enabledStep
  split <;> simp_all

/-- In IDLE, DONE and ERROR no step is enabled (R84). -/
theorem State.enabledStep_of_not_busy {s : State} (h : s.busy = false) : s.enabledStep = none := by
  have hs : s.selector = 0x00#8 ∨ s.selector = 0x04#8 ∨ s.selector = 0x05#8 := by
    rw [State.selector_eq]
    unfold State.busy at h
    cases hst : s.state <;> simp_all
  unfold State.enabledStep
  rcases hs with hs | hs | hs <;> rw [hs] <;> rfl

end Sys2Proof.Machine
end

