-- ==== Sys2Proof/Laws/Engine.lean ====
section
/-! SUPPORT. One inversion lemma per engine step: when it answers a next state, and which. -/

namespace Sys2Proof.Machine

open Sys2Proof

/-- The state after an encoder data step that writes group `p`. -/
def State.afterUnit (s : State) (p : Group) : State :=
  { s with outBuf := s.outBuf.put s.oc ((tochar p).setWidth 32), oc := s.oc + 1, i := s.i + 15 }

/-- The group ENC_DATA_IN reads. -/
def State.groupIn (s : State) : Group := groupWithin (s.inEntry (s.i / 32)) (s.i % 32)

/-- The word after the cursor's, zero past the input (R53). -/
def State.wordAfter (s : State) : Word :=
  if s.i / 32 + 1 < s.inLen.toNat then s.inEntry (s.i / 32 + 1) else 0#32

/-- The group ENC_DATA_STRADDLE reads. -/
def State.groupAcross (s : State) : Group :=
  groupHigh (s.inEntry (s.i / 32)) (s.i % 32) ||| groupLow s.wordAfter (s.i % 32)

theorem execEncDataIn_next {s t : State} :
    execEncDataIn s = .next t ↔ s.selector = selEncDataIn ∧ s.i / 32 < s.params.capIn ∧ s.oc < s.params.capOut
      ∧ s.afterUnit s.groupIn = t := by
  unfold execEncDataIn
  rw [whenSelected_eq_next]
  refine and_congr_right fun _ => ?_
  by_cases hi : s.i / 32 < s.params.capIn
  · rw [wordIndex, State.inRead_of_lt hi]
    by_cases ho : s.oc < s.params.capOut
    · show (s.outWrite s.oc _).bind _ = _ ↔ _
      rw [State.outWrite_of_lt _ ho]
      simp [hi, ho, Except.bind, State.afterUnit, State.groupIn, bitOffset, pure, Except.pure]
    · simp [ho, State.outWrite, bind, Except.bind]
  · simp [hi, wordIndex, State.inRead, bind, Except.bind]

theorem execEncDataStraddle_next {s t : State} :
    execEncDataStraddle s = .next t ↔ s.selector = selEncDataStraddle ∧ s.i / 32 < s.params.capIn
      ∧ (s.i / 32 + 1 < s.inLen.toNat → s.i / 32 + 1 < s.params.capIn) ∧ s.oc < s.params.capOut
      ∧ s.afterUnit s.groupAcross = t := by
  unfold execEncDataStraddle
  rw [whenSelected_eq_next]
  refine and_congr_right fun _ => ?_
  by_cases hi : s.i / 32 < s.params.capIn
  · rw [wordIndex, State.inRead_of_lt hi]
    by_cases hn : s.i / 32 + 1 < s.inLen.toNat → s.i / 32 + 1 < s.params.capIn
    · have hw : s.wordRead (s.i / 32 + 1) = .ok s.wordAfter := by
        rw [State.wordRead_eq_ok, State.wordAfter]
        by_cases hl : s.i / 32 + 1 < s.inLen.toNat
        · exact .inl ⟨hl, hn hl, (if_pos hl).symm⟩
        · exact .inr ⟨by omega, (if_neg hl).symm⟩
      by_cases ho : s.oc < s.params.capOut
      · simp only [hw, bind, Except.bind, State.outWrite_of_lt _ ho, hi, ho, true_and]
        simp [State.afterUnit, State.groupAcross, bitOffset, pure, Except.pure]
        exact fun _ => hn
      · simp [hw, ho, State.outWrite, bind, Except.bind]
    · have hw : s.wordRead (s.i / 32 + 1) = .error .inBufRange := by
        have h := Classical.not_imp.mp hn
        simp [State.wordRead, State.inRead, h.1, h.2]
      simp [hw, hn, bind, Except.bind]
  · simp [hi, wordIndex, State.inRead, bind, Except.bind]

/-- The state ENC_TERM leaves (R105). -/
def State.afterEncTerm (s : State) : State :=
  { s with
    outBuf := s.outBuf.put s.oc ((toterm (BitVec.ofNat 4 (15 - (s.i - s.nb)))).setWidth 32)
    oc := s.oc + 1
    outLen := lenWord (s.oc + 1)
    state := .done }

theorem execEncTerm_next {s t : State} :
    execEncTerm s = .next t ↔ s.selector = selEncTerm ∧ s.oc < s.params.capOut ∧ s.afterEncTerm = t := by
  unfold execEncTerm
  rw [whenSelected_eq_next]
  refine and_congr_right fun _ => ?_
  by_cases ho : s.oc < s.params.capOut
  · simp only [bind, Except.bind, State.outWrite_of_lt _ ho, ho, true_and]
    simp [State.afterEncTerm, pure, Except.pure]
  · simp [ho, State.outWrite, bind, Except.bind]

theorem execDecTerm_next {s t : State} :
    execDecTerm s = .next t ↔ s.selector = selDecTerm ∧
      ((s.inLen.toNat = 0 ∧ s.raise .empty 0#16 = t) ∨
       (s.inLen.toNat ≠ 0 ∧ s.inLen.toNat - 1 < s.params.capIn ∧
         ((fromterm (s.unitAt (s.inLen.toNat - 1)) = none ∧ s.raise .term (s.unitAt (s.inLen.toNat - 1)) = t) ∨
          (∃ n, fromterm (s.unitAt (s.inLen.toNat - 1)) = some n
            ∧ { s with tb := n, i := 0, l := 0, state := .decRun } = t)))) := by
  unfold execDecTerm
  rw [whenSelected_eq_next]
  refine and_congr_right fun _ => ?_
  by_cases hz : s.inLen.toNat = 0
  · simp [hz, pure, Except.pure]
  · rw [if_neg hz]
    by_cases hi : s.inLen.toNat - 1 < s.params.capIn
    · rw [State.unitRead_of_lt hi]
      show (match fromterm (s.unitAt (s.inLen.toNat - 1)) with
        | none => pure (s.raise .term (s.unitAt (s.inLen.toNat - 1)))
        | some n => pure { s with tb := n, i := 0, l := 0, state := .decRun }) = (.ok t : Except Fault State) ↔ _
      cases fromterm (s.unitAt (s.inLen.toNat - 1)) <;> simp [hz, hi, pure, Except.pure]
    · simp [hz, hi, State.unitRead, State.inRead, Except.map, bind, Except.bind]

theorem execDecCharBad_next {s t : State} :
    execDecCharBad s = .next t ↔ s.selector = selDecCharBad ∧ s.i < s.params.capIn
      ∧ s.raise .data (s.unitAt s.i) = t := by
  unfold execDecCharBad
  rw [whenSelected_eq_next]
  refine and_congr_right fun _ => ?_
  by_cases hi : s.i < s.params.capIn
  · rw [State.unitRead_of_lt hi]
    simp [hi, bind, Except.bind, pure, Except.pure]
  · simp [hi, State.unitRead, State.inRead, Except.map, bind, Except.bind]

/-- The group the cursor's unit carries, where it is a data unit. -/
def State.cursorGroup (s : State) : Group := (fromchar (s.unitAt s.i)).getD 0#15

theorem State.groupRead_of_lt {s : State} (hi : s.i < s.params.capIn) : s.groupRead = .ok s.cursorGroup := by
  unfold State.groupRead
  rw [State.unitRead_of_lt hi]
  rfl

/-- DEC_PLACE_IN, where its entries exist: the word at the cursor's index gains the group, words EXTEND adds start at
0, and nothing else of OUT_BUF changes. -/
theorem execDecPlaceIn_spec {s : State} (hsel : s.selector = selDecPlaceIn) (hi : s.i < s.params.capIn)
    (hw : 15 * s.i / 32 < s.params.capOut) :
    ∃ m, execDecPlaceIn s
        = .next { s with i := s.i + 1, l := max s.l (15 * s.i / 32 + 1), outBuf := m } ∧
      (∀ k, m.find k =
        if k = 15 * s.i / 32 then
          some ((if s.l ≤ 15 * s.i / 32 then 0#32 else s.outEntry k) ||| placeWithin s.cursorGroup (15 * s.i % 32))
        else if s.l ≤ k ∧ k ≤ 15 * s.i / 32 then some 0#32
        else s.outBuf.find k) ∧
      (s.outBuf.wf s.params.capOut = true → m.wf s.params.capOut = true) := by
  obtain ⟨m, hm, hf, hwf⟩ := State.extend_spec (s := s) hw
  let u : State := { s with l := max s.l (15 * s.i / 32 + 1), outBuf := m }
  have hu : u.outEntry (15 * s.i / 32) = if s.l ≤ 15 * s.i / 32 then 0#32 else s.outEntry (15 * s.i / 32) := by
    show (m.find _).getD _ = _
    rw [hf]
    by_cases h : s.l ≤ 15 * s.i / 32
    · rw [if_pos ⟨h, le_refl _⟩, if_pos h]; rfl
    · rw [if_neg (by omega), if_neg h]; rfl
  let a := u.outEntry (15 * s.i / 32) ||| placeWithin s.cursorGroup (15 * s.i % 32)
  refine ⟨m.put (15 * s.i / 32) a,
    ?_, fun k => ?_, fun h => Memory.wf_put _ (hwf h) hw⟩
  · unfold execDecPlaceIn
    rw [whenSelected_eq_next]
    refine ⟨hsel, ?_⟩
    have ho : u.outOr (15 * s.i / 32) (placeWithin s.cursorGroup (15 * s.i % 32))
        = .ok { u with outBuf := m.put (15 * s.i / 32) a } :=
      State.outOr_eq_ok.mpr ⟨hw, rfl⟩
    simp only [State.groupRead_of_lt hi, wordIndex, bitOffset, unitPos, bind, Except.bind, hm]
    show (u.outOr (15 * s.i / 32) (placeWithin s.cursorGroup (15 * s.i % 32))).bind
      (fun v => Except.ok { v with i := v.i + 1 }) = _
    rw [ho]
    rfl
  · rw [Memory.find_put, hf]
    by_cases hk : k = 15 * s.i / 32
    · subst hk
      rw [if_pos rfl, if_pos rfl, ← hu]
    · rw [if_neg hk, if_neg hk]

/-- DEC_PLACE_STRADDLE, where its entries exist: the two words gain the group's two parts, words EXTEND adds start at
0, and nothing else of OUT_BUF changes. -/
theorem execDecPlaceStraddle_spec {s : State} (hsel : s.selector = selDecPlaceStraddle)
    (hi : s.i < s.params.capIn) (hw : 15 * s.i / 32 + 1 < s.params.capOut) :
    ∃ m, execDecPlaceStraddle s
        = .next { s with i := s.i + 1, l := max s.l (15 * s.i / 32 + 2), outBuf := m } ∧
      (∀ k, m.find k =
        if k = 15 * s.i / 32 then
          some ((if s.l ≤ k then 0#32 else s.outEntry k) ||| placeHigh s.cursorGroup (15 * s.i % 32))
        else if k = 15 * s.i / 32 + 1 then
          some ((if s.l ≤ k then 0#32 else s.outEntry k) ||| placeLow s.cursorGroup (15 * s.i % 32))
        else if s.l ≤ k ∧ k ≤ 15 * s.i / 32 + 1 then some 0#32
        else s.outBuf.find k) ∧
      (s.outBuf.wf s.params.capOut = true → m.wf s.params.capOut = true) := by
  obtain ⟨m, hm, hf, hwf⟩ := State.extend_spec (s := s) hw
  let u : State := { s with l := max s.l (15 * s.i / 32 + 1 + 1), outBuf := m }
  have hu : ∀ k, k ≤ 15 * s.i / 32 + 1 → u.outEntry k = if s.l ≤ k then 0#32 else s.outEntry k := by
    intro k hk
    show (m.find _).getD _ = _
    rw [hf]
    by_cases h : s.l ≤ k
    · rw [if_pos ⟨h, hk⟩, if_pos h]; rfl
    · rw [if_neg (by omega), if_neg h]; rfl
  let a := u.outEntry (15 * s.i / 32) ||| placeHigh s.cursorGroup (15 * s.i % 32)
  let u' : State := { u with outBuf := m.put (15 * s.i / 32) a }
  let b := u'.outEntry (15 * s.i / 32 + 1) ||| placeLow s.cursorGroup (15 * s.i % 32)
  have hu' : u'.outEntry (15 * s.i / 32 + 1) = u.outEntry (15 * s.i / 32 + 1) := by
    rw [State.outEntry_put (s := u) (t := u') rfl rfl, if_neg (by omega)]
  have hwb : 15 * s.i / 32 < s.params.capOut := by omega
  refine ⟨(m.put (15 * s.i / 32) a).put (15 * s.i / 32 + 1) b,
    ?_, fun k => ?_, fun h => Memory.wf_put _ (Memory.wf_put _ (hwf h) hwb) hw⟩
  · unfold execDecPlaceStraddle
    rw [whenSelected_eq_next]
    refine ⟨hsel, ?_⟩
    have h1 : u.outOr (15 * s.i / 32) (placeHigh s.cursorGroup (15 * s.i % 32)) = .ok u' :=
      State.outOr_eq_ok.mpr ⟨hwb, rfl⟩
    have h2 : u'.outOr (15 * s.i / 32 + 1) (placeLow s.cursorGroup (15 * s.i % 32))
        = .ok { u' with outBuf := (m.put (15 * s.i / 32) a).put (15 * s.i / 32 + 1) b } :=
      State.outOr_eq_ok.mpr ⟨hw, rfl⟩
    simp only [State.groupRead_of_lt hi, wordIndex, bitOffset, unitPos, bind, Except.bind, hm]
    show (u.outOr (15 * s.i / 32) (placeHigh s.cursorGroup (15 * s.i % 32))).bind
      (fun v => (v.outOr (15 * s.i / 32 + 1) (placeLow s.cursorGroup (15 * s.i % 32))).bind
        fun v => Except.ok { v with i := v.i + 1 }) = _
    rw [h1]
    show (u'.outOr (15 * s.i / 32 + 1) (placeLow s.cursorGroup (15 * s.i % 32))).bind
      (fun v => Except.ok { v with i := v.i + 1 }) = _
    rw [h2]
    rfl
  · rw [Memory.find_put, Memory.find_put, hf]
    by_cases hk1 : k = 15 * s.i / 32 + 1
    · subst hk1
      rw [if_pos rfl, if_neg (by omega), if_pos rfl, ← hu _ (le_refl _), ← hu']
    · by_cases hk : k = 15 * s.i / 32
      · subst hk
        rw [if_neg hk1, if_pos rfl, if_pos rfl, ← hu _ (by omega)]
      · rw [if_neg hk1, if_neg hk, if_neg hk, if_neg hk1]

theorem State.groupRead_eq_ok {s : State} {p : Group} (h : s.groupRead = .ok p) : s.i < s.params.capIn := by
  unfold State.groupRead at h
  obtain ⟨u, hu, -⟩ := Except.bind_eq_ok.mp h
  exact (State.unitRead_eq_ok.mp hu).1

/-- DEC_PLACE_IN answers a next state only where it is selected and its entries exist. -/
theorem execDecPlaceIn_next {s t : State} (h : execDecPlaceIn s = .next t) :
    s.selector = selDecPlaceIn ∧ s.i < s.params.capIn ∧ 15 * s.i / 32 < s.params.capOut := by
  unfold execDecPlaceIn at h
  obtain ⟨hsel, h⟩ := whenSelected_eq_next.mp h
  obtain ⟨p, hp, h⟩ := Except.bind_eq_ok.mp h
  obtain ⟨u, hu, h⟩ := Except.bind_eq_ok.mp h
  obtain ⟨v, hv, -⟩ := Except.bind_eq_ok.mp h
  have hw := (State.outOr_eq_ok.mp hv).1
  rw [State.extendBy_frame hu] at hw
  exact ⟨hsel, State.groupRead_eq_ok hp, hw⟩

/-- DEC_PLACE_STRADDLE answers a next state only where it is selected and its entries exist. -/
theorem execDecPlaceStraddle_next {s t : State} (h : execDecPlaceStraddle s = .next t) :
    s.selector = selDecPlaceStraddle ∧ s.i < s.params.capIn ∧ 15 * s.i / 32 + 1 < s.params.capOut := by
  unfold execDecPlaceStraddle at h
  obtain ⟨hsel, h⟩ := whenSelected_eq_next.mp h
  obtain ⟨p, hp, h⟩ := Except.bind_eq_ok.mp h
  obtain ⟨u, hu, h⟩ := Except.bind_eq_ok.mp h
  obtain ⟨v, hv, h⟩ := Except.bind_eq_ok.mp h
  obtain ⟨w, hw, -⟩ := Except.bind_eq_ok.mp h
  obtain ⟨-, rfl⟩ := State.outOr_eq_ok.mp hv
  have hw : 15 * s.i / 32 + 1 < u.params.capOut := (State.outOr_eq_ok.mp hw).1
  rw [State.extendBy_frame hu] at hw
  exact ⟨hsel, State.groupRead_eq_ok hp, hw⟩

theorem State.trimmedLength_eq_ok {s : State} {n : Nat} :
    s.trimmedLength = .ok n ↔
      (s.tb.toNat < 15 ∧ 0 < s.l ∧ s.l - 1 = n) ∨
      (s.tb.toNat < 15 ∧ s.l = 0 ∧ s.params.emptyTrim = .noop ∧ 0 = n) ∨ (15 ≤ s.tb.toNat ∧ s.l = n) := by
  unfold State.trimmedLength
  by_cases ht : s.tb.toNat < 15
  · rw [if_pos ht]
    by_cases hl : 0 < s.l
    · rw [if_pos hl]
      simp [ht, hl]
      omega
    · have hl : s.l = 0 := by omega
      cases he : s.params.emptyTrim <;> simp [ht, hl]
  · rw [if_neg ht]
    simp [ht]
    omega

theorem execDecTrim_next {s t : State} :
    execDecTrim s = .next t ↔ s.selector = selDecTrim ∧ ∃ n, s.trimmedLength = .ok n
      ∧ { s with l := n, outLen := lenWord n, state := .done, outEra := s.outEra + 1 } = t := by
  unfold execDecTrim
  rw [whenSelected_eq_next]
  refine and_congr_right fun _ => ?_
  cases s.trimmedLength <;> simp [bind, Except.bind, pure, Except.pure]

end Sys2Proof.Machine
end

