-- ==== Sys2Proof/Laws/Exec.lean ====
section
/-! SUPPORT. What one instruction can do to the state, said once over all instructions. -/

namespace Sys2Proof.Machine

open Sys2Proof

theorem State.busy_iff (s : State) : s.busy = true ↔ s.state = .encRun ∨ s.state = .decTerm ∨ s.state = .decRun := by
  unfold State.busy
  cases s.state <;> simp

/-- What an engine step that answers a next state leaves: the host's registers, IN_BUF and the parameters as they
were, and either ERR_INFO as it was in a state other than ERROR, or an error raised. -/
def State.EngineEffect (s t : State) : Prop :=
  s.busy = true ∧
  t = { s with
        state := t.state, outLen := t.outLen, errInfo := t.errInfo, i := t.i, oc := t.oc, tb := t.tb, l := t.l,
        outBuf := t.outBuf, outEra := t.outEra } ∧
  ((t.state ≠ .error ∧ t.errInfo = s.errInfo) ∨ ∃ kind cp, kind ≠ .none ∧ t = s.raise kind cp)

theorem State.raise_effect {s : State} (h : s.busy = true) {kind : ErrKind} (hk : kind ≠ .none) (cp : CodeUnit) :
    s.EngineEffect (s.raise kind cp) :=
  ⟨h, rfl, .inr ⟨kind, cp, hk, rfl⟩⟩

theorem engine_effect {s t : State} {i : Instr} (hi : EngineStep i) (h : exec i s = .next t) :
    s.enabledStep = some i ∧ s.EngineEffect t := by
  rcases hi with rfl | rfl | rfl | rfl | rfl | rfl | rfl | rfl <;> simp only [exec] at h
  · obtain ⟨hsel, -, -, rfl⟩ := execEncDataIn_next.mp h
    obtain ⟨hs, -⟩ := State.selector_encDataIn.mp hsel
    exact ⟨by rw [State.enabledStep_eq_some, hsel]; rfl, by rw [State.busy_iff]; simp [hs], rfl,
      .inl ⟨by simp [State.afterUnit, hs], rfl⟩⟩
  · obtain ⟨hsel, -, -, -, rfl⟩ := execEncDataStraddle_next.mp h
    obtain ⟨hs, -⟩ := State.selector_encDataStraddle.mp hsel
    exact ⟨by rw [State.enabledStep_eq_some, hsel]; rfl, by rw [State.busy_iff]; simp [hs], rfl,
      .inl ⟨by simp [State.afterUnit, hs], rfl⟩⟩
  · obtain ⟨hsel, -, rfl⟩ := execEncTerm_next.mp h
    obtain ⟨hs, -⟩ := State.selector_encTerm.mp hsel
    exact ⟨by rw [State.enabledStep_eq_some, hsel]; rfl, by rw [State.busy_iff]; simp [hs], rfl,
      .inl ⟨by simp [State.afterEncTerm], rfl⟩⟩
  · obtain ⟨hsel, hh⟩ := execDecTerm_next.mp h
    have hb : s.busy = true := by rw [State.busy_iff, State.selector_decTerm.mp hsel]; simp
    refine ⟨by rw [State.enabledStep_eq_some, hsel]; rfl, ?_⟩
    rcases hh with ⟨-, rfl⟩ | ⟨-, -, ⟨-, rfl⟩ | ⟨n, -, rfl⟩⟩
    · exact State.raise_effect hb (by decide) _
    · exact State.raise_effect hb (by decide) _
    · exact ⟨hb, rfl, .inl ⟨by simp, rfl⟩⟩
  · obtain ⟨hsel, -, rfl⟩ := execDecCharBad_next.mp h
    obtain ⟨hs, -⟩ := State.selector_decCharBad.mp hsel
    exact ⟨by rw [State.enabledStep_eq_some, hsel]; rfl,
      State.raise_effect (by rw [State.busy_iff]; simp [hs]) (by decide) _⟩
  · obtain ⟨hsel, hi, hw⟩ := execDecPlaceIn_next h
    obtain ⟨hs, -⟩ := State.selector_decPlaceIn.mp hsel
    obtain ⟨m, hm, -⟩ := execDecPlaceIn_spec hsel hi hw
    rw [hm] at h
    cases h
    exact ⟨by rw [State.enabledStep_eq_some, hsel]; rfl, by rw [State.busy_iff]; simp [hs], rfl,
      .inl ⟨by simp [hs], rfl⟩⟩
  · obtain ⟨hsel, hi, hw⟩ := execDecPlaceStraddle_next h
    obtain ⟨hs, -⟩ := State.selector_decPlaceStraddle.mp hsel
    obtain ⟨m, hm, -⟩ := execDecPlaceStraddle_spec hsel hi hw
    rw [hm] at h
    cases h
    exact ⟨by rw [State.enabledStep_eq_some, hsel]; rfl, by rw [State.busy_iff]; simp [hs], rfl,
      .inl ⟨by simp [hs], rfl⟩⟩
  · obtain ⟨hsel, n, -, rfl⟩ := execDecTrim_next.mp h
    obtain ⟨hs, -⟩ := State.selector_decTrim.mp hsel
    exact ⟨by rw [State.enabledStep_eq_some, hsel]; rfl, by rw [State.busy_iff]; simp [hs], rfl,
      .inl ⟨by simp, rfl⟩⟩

theorem engineStep_cases_of {s t : State} {i : Instr} (hi : EngineStep i) (h : exec i s = .next t) :
    EngineStep i ∧ s.enabledStep = some i ∧ s.EngineEffect t :=
  ⟨hi, engine_effect hi h⟩

/-- An instruction that answers a next state sets the model's output lines alone, or is a CMD write, or stores IN_LEN
or an IN_BUF entry while not busy, or is the enabled engine step. -/
theorem exec_cases {s t : State} {i : Instr} (h : exec i s = .next t) :
    (t = { s with returned := t.returned, mapOut := t.mapOut, unitOut := t.unitOut }) ∨
    (∃ v, CmdWriteForm i v ∧ t = s.cmdWrite v) ∨
    (s.busy = false ∧ ∃ v, t = { s with inLen := v }) ∨
    (s.busy = false ∧ ∃ k v, k < s.params.capIn ∧ t = { s with inBuf := s.inBuf.put k v }) ∨
    (EngineStep i ∧ s.enabledStep = some i ∧ s.EngineEffect t) := by
  cases i
  case encode => cases h; exact .inr (.inl ⟨_, .inl ⟨rfl, rfl⟩, rfl⟩)
  case decode => cases h; exact .inr (.inl ⟨_, .inr (.inl ⟨rfl, rfl⟩), rfl⟩)
  case refuse v => cases h; exact .inr (.inl ⟨v, .inr (.inr (.inl rfl)), rfl⟩)
  case wrReg j v =>
    cases h
    rcases s.regWrite_cases j v with ⟨rfl, e⟩ | ⟨hb, e⟩ | e <;> rw [e]
    · exact .inr (.inl ⟨v, .inr (.inr (.inr rfl)), rfl⟩)
    · exact .inr (.inr (.inl ⟨hb, v, rfl⟩))
    · exact .inl rfl
  case wrIn k v =>
    cases h
    rcases s.inHostWrite_cases k v with ⟨hk, hb, e⟩ | e <;> rw [e]
    · exact .inr (.inr (.inr (.inl ⟨hb, k, v, hk, rfl⟩)))
    · exact .inl rfl
  case tochar => cases h; exact .inl rfl
  case fromchar => simp only [exec, execFromchar] at h; split at h <;> cases h <;> exact .inl rfl
  case toterm => simp only [exec, execToterm] at h; split at h <;> cases h; exact .inl rfl
  case fromterm => simp only [exec, execFromterm] at h; split at h <;> cases h <;> exact .inl rfl
  case unitTerm => simp only [exec, execUnitTerm] at h; split at h <;> cases h; exact .inl rfl
  case unitDataA => simp only [exec, execUnitDataA] at h; split at h <;> cases h; exact .inl rfl
  case unitDataB => simp only [exec, execUnitDataB] at h; split at h <;> cases h; exact .inl rfl
  case unitDataC => simp only [exec, execUnitDataC] at h; split at h <;> cases h; exact .inl rfl
  case unitInvalid => simp only [exec, execUnitInvalid] at h; split at h <;> cases h; exact .inl rfl
  case rdReg => cases h; exact .inl rfl
  case rdIn => cases h; exact .inl rfl
  case rdOut => cases h; exact .inl rfl
  case wrOut => cases h; exact .inl rfl
  case accReserved w k v => cases w <;> cases h <;> exact .inl rfl
  all_goals
    exact .inr (.inr (.inr (.inr (engineStep_cases_of (by simp [EngineStep]) h))))

end Sys2Proof.Machine
end

