-- ==== Sys2Proof/Laws/Host.lean ====
section
/-! SUPPORT. What the host and the engine cannot see of each other: no engine step reads the fields a host access may
change while BUSY = 1, and such an access changes nothing else. -/

namespace Sys2Proof.Machine

open Sys2Proof

/-! ## Counting events -/

@[simp] theorem othersIn_nil : othersIn [] = 0 := rfl

@[simp] theorem othersIn_engine (events : List Event) : othersIn (.engine :: events) = othersIn events := by
  simp [othersIn]

@[simp] theorem othersIn_reset (events : List Event) : othersIn (.reset :: events) = othersIn events + 1 := by
  simp [othersIn]

@[simp] theorem othersIn_issue (r : Raw) (events : List Event) :
    othersIn (.issue r :: events) = othersIn events + 1 := by
  simp [othersIn]

/-! ## The engine does not see the host's fields -/

/-- `s` with the host's fields of `u`. -/
def State.withHostOf (s u : State) : State :=
  { s with inputs := u.inputs, cmdErr := u.cmdErr, cmdCause := u.cmdCause, returned := u.returned }

theorem State.sameButForHost_iff {t u : State} : t.SameButForHost u ↔ ∃ h : State, t = u.withHostOf h := by
  refine ⟨fun e => ⟨t, e⟩, ?_⟩
  rintro ⟨h, rfl⟩
  rfl

/-- A statement of a step, and what follows it, with other host fields. -/
theorem bind_withHostOf {h : State} {x x' : Except Fault State} {f f' : State → Except Fault State}
    (hx : x' = x.map fun s => s.withHostOf h)
    (hf : ∀ a, f' (a.withHostOf h) = (f a).map fun s => s.withHostOf h) :
    (x' >>= f') = (x >>= f).map fun s => s.withHostOf h := by
  subst hx
  cases x with
  | error e => rfl
  | ok a => exact hf a

theorem bindRead_withHostOf {α : Type} {h : State} {x : Except Fault α} {f f' : α → Except Fault State}
    (hf : ∀ a, f' a = (f a).map fun s => s.withHostOf h) :
    (x >>= f') = (x >>= f).map fun s => s.withHostOf h := by
  cases x with
  | error e => rfl
  | ok a => exact hf a

theorem State.outWrite_withHostOf (s h : State) (k : Nat) (v : Word) :
    (s.withHostOf h).outWrite k v = (s.outWrite k v).map fun s => s.withHostOf h := by
  unfold State.outWrite
  show (if k < s.params.capOut then _ else _) = _
  split <;> rfl

theorem State.outOr_withHostOf (s h : State) (k : Nat) (v : Word) :
    (s.withHostOf h).outOr k v = (s.outOr k v).map fun s => s.withHostOf h :=
  bindRead_withHostOf (x := s.outRead k) fun _ => s.outWrite_withHostOf h k _

theorem State.extendBy_withHostOf (h : State) (n : Nat) (s : State) :
    (s.withHostOf h).extendBy n = (s.extendBy n).map fun s => s.withHostOf h := by
  induction n generalizing s with
  | zero => rfl
  | succ n ih => exact bind_withHostOf (s.outWrite_withHostOf h s.l _) fun a => ih { a with l := a.l + 1 }

theorem whenSelected_withHostOf {h s t : State} {sel : BitVec 8} {b b' : Except Fault State}
    (hb : b' = b.map fun s => s.withHostOf h) (he : whenSelected sel s b = .next t) :
    whenSelected sel (s.withHostOf h) b' = .next (t.withHostOf h) := by
  rw [whenSelected_eq_next] at he ⊢
  exact ⟨he.1, by rw [hb, he.2]; rfl⟩

/-- An engine step with other host fields gives the same next state with those fields. -/
theorem exec_withHostOf {i : Instr} {s t : State} (h : State) (hi : EngineStep i) (he : exec i s = .next t) :
    exec i (s.withHostOf h) = .next (t.withHostOf h) := by
  rcases hi with rfl | rfl | rfl | rfl | rfl | rfl | rfl | rfl <;> refine whenSelected_withHostOf ?_ he
  · exact bindRead_withHostOf (x := s.inRead (wordIndex s.i)) fun _ =>
      bind_withHostOf (s.outWrite_withHostOf h _ _) fun _ => rfl
  · exact bindRead_withHostOf (x := s.inRead (wordIndex s.i)) fun _ =>
      bindRead_withHostOf (x := s.wordRead (wordIndex s.i + 1)) fun _ =>
        bind_withHostOf (s.outWrite_withHostOf h _ _) fun _ => rfl
  · exact bind_withHostOf (s.outWrite_withHostOf h _ _) fun _ => rfl
  · show (if s.inLen.toNat = 0 then _ else _) = Except.map _ (if s.inLen.toNat = 0 then _ else _)
    split
    · rfl
    · refine bindRead_withHostOf (x := s.unitRead (s.inLen.toNat - 1)) fun t => ?_
      cases fromterm t <;> rfl
  · exact bindRead_withHostOf (x := s.unitRead s.i) fun _ => rfl
  · exact bindRead_withHostOf (x := s.groupRead) fun _ =>
      bind_withHostOf (State.extendBy_withHostOf h _ s) fun u =>
        bind_withHostOf (u.outOr_withHostOf h _ _) fun _ => rfl
  · exact bindRead_withHostOf (x := s.groupRead) fun _ =>
      bind_withHostOf (State.extendBy_withHostOf h _ s) fun u =>
        bind_withHostOf (u.outOr_withHostOf h _ _) fun v =>
          bind_withHostOf (v.outOr_withHostOf h _ _) fun _ => rfl
  · exact bindRead_withHostOf (x := s.trimmedLength) fun _ => rfl

/-! ## A host access does not touch a running operation -/

theorem State.cmdWrite_of_busy {s : State} (h : s.busy = true) (v : Word) : s.cmdWrite v = s.refuse .busy := if_pos h

theorem State.regWrite_of_busy {s : State} (h : s.busy = true) {j : Nat} (hj : j ≠ 0) (v : Word) :
    s.regWrite j v = s := by
  unfold State.regWrite
  split
  · contradiction
  · exact if_pos h
  · rfl

theorem State.inHostWrite_of_busy {s : State} (h : s.busy = true) (k : Nat) (v : Word) : s.inHostWrite k v = s :=
  if_neg (by simp [h])

/-- Every host access while BUSY = 1 answers a next state that differs in the host's fields alone. -/
theorem exec_access_of_busy {s : State} (h : s.busy = true) (space : BitVec 2) (w : BitVec 1) (k : Nat) (v : Word) :
    ∃ t, exec (decodeAccess space w k v) s = .next t ∧ t.inputs = s.inputs ∧ t.SameButForHost s := by
  unfold decodeAccess decodeCmd
  split_ifs with _ _ hk
  · exact ⟨s.refuse .busy, congrArg Host.Outcome.next (State.cmdWrite_of_busy h _), rfl, rfl⟩
  · exact ⟨s.refuse .busy, congrArg Host.Outcome.next (State.cmdWrite_of_busy h _), rfl, rfl⟩
  · exact ⟨s.refuse .busy, congrArg Host.Outcome.next (State.cmdWrite_of_busy h _), rfl, rfl⟩
  · exact ⟨s, congrArg Host.Outcome.next (State.regWrite_of_busy h hk v), rfl, rfl⟩
  · exact ⟨_, rfl, rfl, rfl⟩
  · exact ⟨s, congrArg Host.Outcome.next (State.inHostWrite_of_busy h k v), rfl, rfl⟩
  all_goals exact ⟨_, rfl, rfl, rfl⟩

end Sys2Proof.Machine
end

