-- ==== Sys2Proof/Laws/PerInstr.lean ====
section
/-! SUPPORT. The family RowFormat: every row's encoding has the format the opcode table gives the row. -/

/-- The encoding of `i` has its row's format. -/
def Sys2Proof.Laws.RowFormat.Statement (i : Sys2Proof.Instr) : Prop := (Sys2Proof.encode i).format = i.format

open Sys2Proof

theorem Sys2Proof.Laws.RowFormat.encode : Sys2Proof.Laws.RowFormat.Statement .encode := rfl

theorem Sys2Proof.Laws.RowFormat.decode : Sys2Proof.Laws.RowFormat.Statement .decode := rfl

theorem Sys2Proof.Laws.RowFormat.refuse (v : Word) : Sys2Proof.Laws.RowFormat.Statement (.refuse v) := rfl

theorem Sys2Proof.Laws.RowFormat.encDataIn : Sys2Proof.Laws.RowFormat.Statement .encDataIn := rfl

theorem Sys2Proof.Laws.RowFormat.encDataStraddle : Sys2Proof.Laws.RowFormat.Statement .encDataStraddle := rfl

theorem Sys2Proof.Laws.RowFormat.encTerm : Sys2Proof.Laws.RowFormat.Statement .encTerm := rfl

theorem Sys2Proof.Laws.RowFormat.decTerm : Sys2Proof.Laws.RowFormat.Statement .decTerm := rfl

theorem Sys2Proof.Laws.RowFormat.decCharBad : Sys2Proof.Laws.RowFormat.Statement .decCharBad := rfl

theorem Sys2Proof.Laws.RowFormat.decPlaceIn : Sys2Proof.Laws.RowFormat.Statement .decPlaceIn := rfl

theorem Sys2Proof.Laws.RowFormat.decPlaceStraddle : Sys2Proof.Laws.RowFormat.Statement .decPlaceStraddle := rfl

theorem Sys2Proof.Laws.RowFormat.decTrim : Sys2Proof.Laws.RowFormat.Statement .decTrim := rfl

theorem Sys2Proof.Laws.RowFormat.tochar (p : Group) : Sys2Proof.Laws.RowFormat.Statement (.tochar p) := rfl

theorem Sys2Proof.Laws.RowFormat.fromchar (c : CodeUnit) : Sys2Proof.Laws.RowFormat.Statement (.fromchar c) := rfl

theorem Sys2Proof.Laws.RowFormat.toterm (n : TailCount) : Sys2Proof.Laws.RowFormat.Statement (.toterm n) := rfl

theorem Sys2Proof.Laws.RowFormat.fromterm (t : CodeUnit) : Sys2Proof.Laws.RowFormat.Statement (.fromterm t) := rfl

theorem Sys2Proof.Laws.RowFormat.unitTerm (n : TailCount) : Sys2Proof.Laws.RowFormat.Statement (.unitTerm n) := rfl

theorem Sys2Proof.Laws.RowFormat.unitDataA (u : CodeUnit) :
    Sys2Proof.Laws.RowFormat.Statement (.unitDataA u) := rfl

theorem Sys2Proof.Laws.RowFormat.unitDataB (u : CodeUnit) :
    Sys2Proof.Laws.RowFormat.Statement (.unitDataB u) := rfl

theorem Sys2Proof.Laws.RowFormat.unitDataC (u : CodeUnit) :
    Sys2Proof.Laws.RowFormat.Statement (.unitDataC u) := rfl

theorem Sys2Proof.Laws.RowFormat.unitInvalid (u : CodeUnit) :
    Sys2Proof.Laws.RowFormat.Statement (.unitInvalid u) := rfl

theorem Sys2Proof.Laws.RowFormat.rdReg (index : Nat) : Sys2Proof.Laws.RowFormat.Statement (.rdReg index) := rfl

theorem Sys2Proof.Laws.RowFormat.wrReg (index : Nat) (data : Word) :
    Sys2Proof.Laws.RowFormat.Statement (.wrReg index data) := rfl

theorem Sys2Proof.Laws.RowFormat.wrIn (index : Nat) (data : Word) :
    Sys2Proof.Laws.RowFormat.Statement (.wrIn index data) := rfl

theorem Sys2Proof.Laws.RowFormat.rdIn (index : Nat) : Sys2Proof.Laws.RowFormat.Statement (.rdIn index) := rfl

theorem Sys2Proof.Laws.RowFormat.rdOut (index : Nat) : Sys2Proof.Laws.RowFormat.Statement (.rdOut index) := rfl

theorem Sys2Proof.Laws.RowFormat.wrOut (index : Nat) (data : Word) :
    Sys2Proof.Laws.RowFormat.Statement (.wrOut index data) := rfl

theorem Sys2Proof.Laws.RowFormat.accReserved (w : Bool) (index : Nat) (data : Word) :
    Sys2Proof.Laws.RowFormat.Statement (.accReserved w index data) := rfl
end

