-- ==== Sys2Proof/Laws/Run.lean ====
section
/-! SUPPORT. The host's `run`, one step at a time. -/

namespace Sys2Proof.Machine

open Sys2Proof

/-- A run of `n + 1` steps completes exactly when its first step does and the rest does from there. -/
theorem coreRun_succ_eq_next {M : Host.Core} {n : Nat} {s t : M.State} :
    M.run (n + 1) s = .next t ↔ ∃ u, M.step s = .next u ∧ M.run n u = .next t := by
  rw [Host.Core.run]
  cases M.step s <;> simp

theorem coreRun_one {M : Host.Core} (s : M.State) : M.run 1 s = M.step s := by
  rw [Host.Core.run]
  cases h : M.step s <;> simp [Host.Core.run]

/-- A run can be lengthened at its end. -/
theorem coreRun_snoc {M : Host.Core} {n : Nat} {s u : M.State} (h : M.run n s = .next u) :
    M.run (n + 1) s = M.step u := by
  induction n generalizing s with
  | zero =>
    rw [Host.Core.run] at h
    cases h
    exact coreRun_one _
  | succ n ih =>
    obtain ⟨v, hv, h⟩ := coreRun_succ_eq_next.mp h
    rw [Host.Core.run, hv]
    exact ih h

/-- The same for this machine. -/
theorem run_snoc {n : Nat} {s u : State} (h : core.run n s = .next u) : core.run (n + 1) s = step u :=
  coreRun_snoc (M := core) h

theorem run_succ_eq_next {n : Nat} {s t : State} :
    core.run (n + 1) s = .next t ↔ ∃ u : State, step s = .next u ∧ core.run n u = .next t :=
  coreRun_succ_eq_next (M := core)

end Sys2Proof.Machine
end

