-- ==== Sys2Proof/Laws/Step.lean ====
section
/-! SUPPORT. What one step can do, said once. -/

namespace Sys2Proof.Machine

open Sys2Proof

/-- A step that answers a next state is the engine's turn, a reset, or a decoded raw form, run. -/
theorem step_cases {s t : State} (h : step s = .next t) :
    (∃ r, (s.inputs = [] ∧ r = s ∨ ∃ rest, s.inputs = .engine :: rest ∧ r = { s with inputs := rest }) ∧
      ((∃ i, r.enabledStep = some i ∧ exec i r = .next t) ∨ r.enabledStep = none ∧ t = r)) ∨
    (∃ rest, s.inputs = .reset :: rest ∧ t = { s with inputs := rest }.afterReset) ∨
    (∃ r rest i, s.inputs = .issue r :: rest ∧ decode r = .ok i ∧ exec i { s with inputs := rest } = .next t) := by
  unfold step fetch at h
  split at h
  · rename_i i u hf
    split at hf
    · unfold fetchEngine at hf
      split at hf <;> cases hf
      exact .inl ⟨s, .inl ⟨by assumption, rfl⟩, .inl ⟨_, by assumption, h⟩⟩
    · unfold fetchEngine at hf
      split at hf <;> cases hf
      exact .inl ⟨_, .inr ⟨_, by assumption, rfl⟩, .inl ⟨_, by assumption, h⟩⟩
    · cases hf
    · split at hf <;> cases hf
      exact .inr (.inr ⟨_, _, _, by assumption, by assumption, h⟩)
  · rename_i u hf
    cases h
    split at hf
    · unfold fetchEngine at hf
      split at hf <;> cases hf
      exact .inl ⟨s, .inl ⟨by assumption, rfl⟩, .inr ⟨by assumption, rfl⟩⟩
    · unfold fetchEngine at hf
      split at hf <;> cases hf
      exact .inl ⟨_, .inr ⟨_, by assumption, rfl⟩, .inr ⟨by assumption, rfl⟩⟩
    · cases hf
      exact .inr (.inl ⟨_, by assumption, rfl⟩)
    · split at hf <;> cases hf
  · cases h

/-- The enabled step is one of the eight engine steps. -/
theorem State.enabledStep_cases {s : State} {i : Instr} (h : s.enabledStep = some i) :
    i = .encDataIn ∨ i = .encDataStraddle ∨ i = .encTerm ∨ i = .decTerm ∨ i = .decCharBad ∨ i = .decPlaceIn ∨
      i = .decPlaceStraddle ∨ i = .decTrim := by
  rw [State.enabledStep_eq_some] at h
  unfold decodeSelector at h
  repeat' split at h
  all_goals first | (cases h; simp) | cases h

end Sys2Proof.Machine
end

