-- ==== Sys2Proof/Tests/Slice0.lean ====
section
/-! SUPPORT. Tests: words and step results from the spec's own tables and vectors (95_test_vectors.md), and for each
statement with hypotheses a state and operands that meet them. -/

namespace Sys2Proof.Tests

open Sys2Proof Sys2Proof.Machine

/-! ## Well-formedness: a term each check refuses -/

theorem test_wf_refuse_encode_word : (Instr.refuse 0x00000001#32).wellFormed = false := by decide
theorem test_wf_refuse_decode_word : (Instr.refuse 0x00000002#32).wellFormed = false := by decide
theorem test_wf_toterm_zero : (Instr.toterm 0#4).wellFormed = false := by decide
theorem test_wf_unitTerm_zero : (Instr.unitTerm 0#4).wellFormed = false := by decide
theorem test_wf_unitDataA_above : (Instr.unitDataA 0x4DB6#16).wellFormed = false := by decide
theorem test_wf_unitDataB_below : (Instr.unitDataB 0x4DFF#16).wellFormed = false := by decide
theorem test_wf_unitDataC_above : (Instr.unitDataC 0xF4A4#16).wellFormed = false := by decide
theorem test_wf_unitInvalid_terminator : (Instr.unitInvalid 0x2401#16).wellFormed = false := by decide
theorem test_wf_wrReg_cmd : (Instr.wrReg 0 0x00000001#32).wellFormed = false := by decide
theorem test_wf_reserved_read_data : (Instr.accReserved false 3 0x00000001#32).wellFormed = false := by decide

/-! ## Decoding: words written out from the spec's encodings -/

/-- R78: the two command words and values that name no command (H2 to H5). -/
theorem test_decode_cmd :
    decodeTableWord 32 0x00000001 = some .encode ∧ decodeTableWord 32 0x00000002 = some .decode ∧
    decodeTableWord 32 0x00000003 = some (.refuse 0x00000003#32) ∧
    decodeTableWord 32 0x00000000 = some (.refuse 0x00000000#32) ∧
    decodeTableWord 32 0x00000005 = some (.refuse 0x00000005#32) ∧
    decodeTableWord 32 0x80000001 = some (.refuse 0x80000001#32) := by decide

/-- R84: STATE in bits [2:0], the row's condition above it. -/
theorem test_decode_steps :
    decodeTableWord 8 0b00000001 = some .encDataIn ∧ decodeTableWord 8 0b00001001 = some .encDataStraddle ∧
    decodeTableWord 8 0b00010001 = some .encTerm ∧ decodeTableWord 8 0b00000010 = some .decTerm ∧
    decodeTableWord 8 0b00000011 = some .decPlaceIn ∧ decodeTableWord 8 0b00001011 = some .decPlaceStraddle ∧
    decodeTableWord 8 0b00010011 = some .decTrim ∧ decodeTableWord 8 0b00100011 = some .decCharBad := by decide

/-- R27, R84: IDLE, DONE and ERROR enable no step; STATE 6 and 7 never occur. -/
theorem test_decode_no_step :
    decode (.selector 0x00#8) = .error .noStepInState ∧ decode (.selector 0x04#8) = .error .noStepInState ∧
    decode (.selector 0x05#8) = .error .noStepInState ∧ decode (.selector 0x06#8) = .error .stateNeverOccurs ∧
    decode (.selector 0x07#8) = .error .stateNeverOccurs ∧
    decode (.selector 0x0A#8) = .error .reservedSelector := by decide

/-- R90 to R93: the mapper's operands at the ends of their ranges. -/
theorem test_decode_mapper :
    decode (.mapper .tochar 0x7FFF#16) = .ok (.tochar 0x7FFF#15) ∧
    decode (.mapper .tochar 0x8000#16) = .error .groupOutOfRange ∧
    decode (.mapper .fromchar 0xFFFF#16) = .ok (.fromchar 0xFFFF#16) ∧
    decode (.mapper .toterm 0x000F#16) = .ok (.toterm 15#4) ∧
    decode (.mapper .toterm 0x0000#16) = .error .countOutOfRange ∧
    decode (.mapper .toterm 0x0010#16) = .error .countOutOfRange ∧
    decode (.mapper .fromterm 0x2400#16) = .ok (.fromterm 0x2400#16) := by decide

/-- R72, R73: the ends of every range of units. -/
theorem test_decode_units :
    decodeTableWord 16 0x2400 = some (.unitInvalid 0x2400#16) ∧ decodeTableWord 16 0x2401 = some (.unitTerm 1#4) ∧
    decodeTableWord 16 0x240F = some (.unitTerm 15#4) ∧
    decodeTableWord 16 0x2410 = some (.unitInvalid 0x2410#16) ∧
    decodeTableWord 16 0x3400 = some (.unitDataA 0x3400#16) ∧ decodeTableWord 16 0x4DB5 = some (.unitDataA 0x4DB5#16) ∧
    decodeTableWord 16 0x4E00 = some (.unitDataB 0x4E00#16) ∧ decodeTableWord 16 0x9FA5 = some (.unitDataB 0x9FA5#16) ∧
    decodeTableWord 16 0xE000 = some (.unitDataC 0xE000#16) ∧ decodeTableWord 16 0xF4A3 = some (.unitDataC 0xF4A3#16) ∧
    decodeTableWord 16 0xF4A4 = some (.unitInvalid 0xF4A4#16) := by decide

/-- R79: the access tuples of program P1 and of H13 to H16. -/
theorem test_decode_accesses :
    decode (.access 0b01#2 1#1 0 0x12345678#32) = .ok (.wrIn 0 0x12345678#32) ∧
    decode (.access 0b00#2 1#1 2 0x00000001#32) = .ok (.wrReg 2 0x00000001#32) ∧
    decode (.access 0b00#2 1#1 0 0x00000001#32) = .ok .encode ∧
    decode (.access 0b00#2 0#1 1 0#32) = .ok (.rdReg 1) ∧ decode (.access 0b10#2 0#1 3 0#32) = .ok (.rdOut 3) ∧
    decode (.access 0b01#2 0#1 4 0#32) = .ok (.rdIn 4) ∧
    decode (.access 0b10#2 1#1 0 0x00000000#32) = .ok (.wrOut 0 0x00000000#32) ∧
    decode (.access 0b11#2 0#1 7 0#32) = .ok (.accReserved false 7 0#32) ∧
    decode (.access 0b11#2 1#1 7 0x00000005#32) = .ok (.accReserved true 7 0x00000005#32) := by decide

/-! ## Small states -/

/-- The next state of an outcome, if it is one. -/
def nextOf : Host.Outcome State Fault Refusal → Option State
  | .next s => some s
  | .fault _ => none
  | .refused _ => none

/-- IDLE with one word loaded: P1 before its CMD write. -/
def oneWord : State := { State.reset with inLen := 1#32, inBuf := [(0, 0x12345678#32)] }

/-- P1 right after its CMD write. -/
def encStart : State := { oneWord with state := .encRun, nb := 32, outEra := 1 }

/-- P1 before its third engine step, the straddle. -/
def encStraddle : State := { encStart with i := 30, oc := 2, outBuf := [(0, 0x3D1A#32), (1, 0x499E#32)] }

/-- P1 before its last engine step. -/
def encLast : State :=
  { encStart with i := 45, oc := 3, outBuf := [(0, 0x3D1A#32), (1, 0x499E#32), (2, 0x3400#32)] }

/-- P1's end state. -/
def encDone : State :=
  { encLast with
    state := .done, oc := 4, outLen := 4#32
    outBuf := [(0, 0x3D1A#32), (1, 0x499E#32), (2, 0x3400#32), (3, 0x2402#32)] }

/-- IDLE with the units of P2 loaded. -/
def fourUnits : State :=
  { State.reset with
    inLen := 4#32, inBuf := [(0, 0x3D1A#32), (1, 0x499E#32), (2, 0x3400#32), (3, 0x2402#32)] }

/-- P2 right after its CMD write. -/
def decStart : State := { fourUnits with state := .decTerm, outEra := 1 }

/-- P2 before its first placement. -/
def decFirst : State := { decStart with state := .decRun, tb := 2#4 }

/-- P2 before its straddle. -/
def decStraddle : State := { decFirst with i := 2, l := 1, outBuf := [(0, 0x12345678#32)] }

/-- P2 before its trim. -/
def decLast : State := { decFirst with i := 3, l := 2, outBuf := [(0, 0x12345678#32), (1, 0x00000000#32)] }

/-- P3 before DEC_CHAR_BAD. -/
def decBad : State :=
  { State.reset with
    inLen := 4#32, inBuf := [(0, 0x3400#32), (1, 0x9FA6#32), (2, 0x3400#32), (3, 0x2402#32)], state := .decRun
    tb := 2#4, i := 1, l := 1, outBuf := [(0, 0x00000000#32)], outEra := 1 }

/-- P3's end state. -/
def decError : State := { decBad with state := .error, errInfo := 0x00039FA6#32, outEra := 2 }

/-- V-D17 before its trim, with EMPTY_TRIM = FAULT. -/
def emptyTrimState : State :=
  { State.reset with
    params := { capIn := 33, capOut := 72, emptyTrim := .fault }, inLen := 1#32, inBuf := [(0, 0x2401#32)]
    state := .decRun, tb := 1#4, outEra := 1 }

theorem oneWord_inv : oneWord.Inv :=
  ⟨by decide, by decide, by decide, by decide, ⟨.none, 0#16, by decide, by decide, by decide⟩, by decide, by decide,
    by decide, by decide, by decide, by decide, by decide⟩

theorem encStart_inv : encStart.Inv :=
  ⟨by decide, by decide, by decide, by decide, ⟨.none, 0#16, by decide, by decide, by decide⟩, by decide, by decide,
    by decide, by decide, by decide, by decide, by decide⟩

theorem encStraddle_inv : encStraddle.Inv :=
  ⟨by decide, by decide, by decide, by decide, ⟨.none, 0#16, by decide, by decide, by decide⟩, by decide, by decide,
    by decide, by decide, by decide, by decide, by decide⟩

theorem encLast_inv : encLast.Inv :=
  ⟨by decide, by decide, by decide, by decide, ⟨.none, 0#16, by decide, by decide, by decide⟩, by decide, by decide,
    by decide, by decide, by decide, by decide, by decide⟩

theorem fourUnits_inv : fourUnits.Inv :=
  ⟨by decide, by decide, by decide, by decide, ⟨.none, 0#16, by decide, by decide, by decide⟩, by decide, by decide,
    by decide, by decide, by decide, by decide, by decide⟩

theorem decStart_inv : decStart.Inv :=
  ⟨by decide, by decide, by decide, by decide, ⟨.none, 0#16, by decide, by decide, by decide⟩, by decide, by decide,
    by decide, by decide, by decide, by decide, by decide⟩

theorem decFirst_inv : decFirst.Inv :=
  ⟨by decide, by decide, by decide, by decide, ⟨.none, 0#16, by decide, by decide, by decide⟩, by decide, by decide,
    by decide, by decide, by decide, by decide, by decide⟩

theorem decStraddle_inv : decStraddle.Inv :=
  ⟨by decide, by decide, by decide, by decide, ⟨.none, 0#16, by decide, by decide, by decide⟩, by decide, by decide,
    by decide, by decide, by decide, by decide, by decide⟩

theorem decError_inv : decError.Inv :=
  ⟨by decide, by decide, by decide, by decide, ⟨.data, 0x9FA6#16, by decide, by decide, by decide⟩, by decide,
    by decide, by decide, by decide, by decide, by decide, by decide⟩

theorem emptyTrimState_inv : emptyTrimState.Inv :=
  ⟨by decide, by decide, by decide, by decide, ⟨.none, 0#16, by decide, by decide, by decide⟩, by decide, by decide,
    by decide, by decide, by decide, by decide, by decide⟩

/-- The two units encStraddle has written are those of its first two groups. -/
theorem encStraddle_result : encStraddle.ResultInv := by
  refine ⟨fun _ g hg => ?_, by decide⟩
  have hg : g < 2 := hg
  match g, hg with
  | 0, _ => exact ⟨0x091A#15, by decide, by decide⟩
  | 1, _ => exact ⟨0x159E#15, by decide, by decide⟩

/-- The word decStraddle has written holds the bits of its first two units. -/
theorem decStraddle_result : decStraddle.ResultInv :=
  ⟨fun h => absurd h (by decide), by decide⟩

/-! ## One step each, from the spec's vectors -/

/-- H2, H5: an illegal value from reset, and over a DONE result, which stays. -/
theorem test_refuse_illegal :
    (nextOf (exec (.refuse 0x00000003#32) State.reset)).map State.statusWord = some 0x00000030#32 ∧
    (nextOf (exec (.refuse 0x80000001#32) encDone)).map (fun t => (t.statusWord, t.outLen, t.outBuf))
      = some (0x00000034#32, 4#32, encDone.outBuf) := by decide

/-- H8, H9: BUSY comes first. -/
theorem test_refuse_busy :
    (nextOf (exec .decode encStart)).map State.statusWord = some 0x00000059#32 ∧
    (nextOf (exec (.refuse 0x00000007#32) encStart)).map State.statusWord = some 0x00000059#32 := by decide

/-- P4: 34 > CAP_IN = 33 over a DONE result; H7: ILLEGAL_OP precedes LENGTH. -/
theorem test_refuse_length :
    (nextOf (exec .encode { encDone with inLen := 34#32 })).map State.statusWord = some 0x00000074#32 ∧
    (nextOf (exec (.refuse 0x00000007#32) { State.reset with inLen := 34#32 })).map State.statusWord
      = some 0x00000030#32 := by decide

/-- H12: an accepted ENCODE over DONE with CMD_ERR set. -/
theorem test_encode_accepted :
    (nextOf (exec .encode { encDone with cmdErr := true, cmdCause := .busy, inLen := 1#32 })).map
      (fun t => (t.statusWord, t.outLen, t.errInfo, t.nb, t.i, t.oc)) = some (0x00000009#32, 0#32, 0#32, 32, 0, 0) := by
  decide

/-- R143: an accepted DECODE over ERROR clears ERR_INFO. -/
theorem test_decode_accepted :
    (nextOf (exec .decode decError)).map (fun t => (t.statusWord, t.outLen, t.errInfo))
      = some (0x0000000A#32, 0#32, 0#32) := by decide

/-- The trace of [12345678], first row. -/
theorem test_encDataIn : (nextOf (exec .encDataIn encStart)).map (fun t => (t.outBuf, t.oc, t.i))
    = some ([(0, 0x3D1A#32)], 1, 15) := by decide

/-- The trace of [DEADBEEF, 01234567], last straddle, with W(2) = 0. -/
theorem test_encDataStraddle_past_end :
    (nextOf (exec .encDataStraddle
      { encStart with inLen := 2#32, nb := 64, inBuf := [(0, 0xDEADBEEF#32), (1, 0x01234567#32)], i := 60, oc := 4 })).map
      (fun t => (t.outBuf, t.oc, t.i)) = some ([(4, 0x6C4A#32)], 5, 75) := by decide

/-- The straddle corner vector, group 14: the smallest straddle offset. -/
theorem test_encDataStraddle_offset_18 :
    (nextOf (exec .encDataStraddle
      { encStart with
        inLen := 15#32, nb := 480, inBuf := [(6, 0x00003FFF#32), (7, 0x80000001#32)], i := 210, oc := 14 })).map
      (fun t => (t.outBuf, t.oc, t.i)) = some ([(14, 0xF4A3#32)], 15, 225) := by decide

/-- The trace of [12345678], last row. -/
theorem test_encTerm : nextOf (exec .encTerm encLast) = some encDone := by decide

/-- V-E1: ENCODE of no word is one ENC_TERM step. -/
theorem test_encTerm_empty :
    (nextOf (exec .encTerm { State.reset with state := .encRun })).map (fun t => (t.outBuf, t.outLen, t.statusWord))
      = some ([(0, 0x240F#32)], 1#32, 0x00000004#32) := by decide

/-- P2's first step; D-E1. -/
theorem test_decTerm : nextOf (exec .decTerm decStart) = some decFirst ∧
    (nextOf (exec .decTerm { State.reset with state := .decTerm })).map (fun t => (t.statusWord, t.errInfo, t.outLen))
      = some (0x00000005#32, 0x00010000#32, 0#32) := by decide

/-- D-E4: the terminator is checked before any data unit. -/
theorem test_decTerm_bad :
    (nextOf (exec .decTerm
      { State.reset with state := .decTerm, inLen := 2#32, inBuf := [(0, 0x0000#32), (1, 0x0001#32)] })).map
      (fun t => (t.statusWord, t.errInfo)) = some (0x00000005#32, 0x00020001#32) := by decide

/-- P3: OUT[0] was written and keeps its value, and OUT_LEN is 0. -/
theorem test_decCharBad : nextOf (exec .decCharBad decBad) = some decError := by decide

/-- The trace of [E3FA, E45F, ...], second row: the group is OR-ed into a word that exists. -/
theorem test_decPlaceIn :
    (nextOf (exec .decPlaceIn
      { decFirst with inBuf := [(0, 0xE3FA#32), (1, 0xE45F#32)], i := 1, l := 1, outBuf := [(0, 0xDEAC0000#32)] })).map
      (fun t => (t.outBuf, t.i, t.l)) = some ([(0, 0xDEADBEEC#32)], 2, 1) := by decide

/-- V-D14: p = 6582 at offset 0, into a word that EXTEND makes over a left-over entry. -/
theorem test_decPlaceIn_extends :
    (nextOf (exec .decPlaceIn
      { decFirst with inLen := 2#32, inBuf := [(0, 0x4E00#32), (1, 0x240F#32)], outBuf := [(0, 0xFFFFFFFF#32)] })).map
      (fun t => (t.outBuf, t.i, t.l)) = some ([(0, 0x336C0000#32)], 1, 1) := by decide

/-- The trace of [F4A3, F4A3, F4A3, 240F], the straddle. -/
theorem test_decPlaceStraddle :
    (nextOf (exec .decPlaceStraddle
      { decStraddle with inBuf := [(2, 0xF4A3#32)], outBuf := [(0, 0xFFFFFFFC#32)] })).map
      (fun t => (t.outBuf, t.i, t.l)) = some ([(0, 0xFFFFFFFF#32), (1, 0xFFF80000#32)], 3, 2) := by decide

/-- P2's last step: the dropped entry is not cleared. -/
theorem test_decTrim :
    (nextOf (exec .decTrim decLast)).map (fun t => (t.statusWord, t.outLen, t.l, t.outBuf))
      = some (0x00000004#32, 1#32, 1, [(0, 0x12345678#32), (1, 0x00000000#32)]) := by decide

/-- V-D17: both settings of EMPTY_TRIM. -/
theorem test_decTrim_empty : exec .decTrim emptyTrimState = .fault .emptyTrim ∧
    (nextOf (exec .decTrim { emptyTrimState with params := paramsAtReset })).map (fun t => (t.statusWord, t.outLen))
      = some (0x00000004#32, 0#32) := ⟨rfl, by decide⟩

/-- TOCHAR's table: the ends of its three rows. -/
theorem test_tochar :
    tochar 0#15 = 0x3400#16 ∧ tochar 6581#15 = 0x4DB5#16 ∧ tochar 6582#15 = 0x4E00#16 ∧
    tochar 27483#15 = 0x9FA5#16 ∧ tochar 27484#15 = 0xE000#16 ∧ tochar 32767#15 = 0xF4A3#16 ∧
    (nextOf (exec (.tochar 24576#15) State.reset)).map State.mapOut = some (some (.unit 0x944A#16)) := by decide

/-- FROMCHAR's table. -/
theorem test_fromchar :
    (nextOf (exec (.fromchar 0x944A#16) State.reset)).map State.mapOut = some (some (.group 24576#15)) ∧
    (nextOf (exec (.fromchar 0x4DB6#16) State.reset)).map State.mapOut = some (some (.fail 0x4DB6#16)) := by decide

/-- TOTERM(15), and the count 0 outside its range. -/
theorem test_toterm :
    (nextOf (exec (.toterm 15#4) State.reset)).map State.mapOut = some (some (.unit 0x240F#16)) ∧
    exec (.toterm 0#4) State.reset = .refused .illFormed := ⟨by decide, rfl⟩

/-- FROMTERM(0x2404) and FROMTERM(0x2410). -/
theorem test_fromterm :
    (nextOf (exec (.fromterm 0x2404#16) State.reset)).map State.mapOut = some (some (.count 4#4)) ∧
    (nextOf (exec (.fromterm 0x2410#16) State.reset)).map State.mapOut = some (some (.fail 0x2410#16)) := by decide

/-- R72, R73: one unit of each class, with the group of the FROMCHAR table. -/
theorem test_units :
    (nextOf (exec (.unitTerm 2#4) State.reset)).map State.unitOut = some (some (.term 2#4)) ∧
    (nextOf (exec (.unitDataA 0x4DB5#16) State.reset)).map State.unitOut = some (some (.dataA 6581#15)) ∧
    (nextOf (exec (.unitDataB 0x4E00#16) State.reset)).map State.unitOut = some (some (.dataB 6582#15)) ∧
    (nextOf (exec (.unitDataC 0xE000#16) State.reset)).map State.unitOut = some (some (.dataC 27484#15)) ∧
    (nextOf (exec (.unitInvalid 0xD800#16) State.reset)).map State.unitOut = some (some .invalid) := by decide

/-- H8's STATUS, H14, P3's ERR_INFO and P1's OUT_LEN. -/
theorem test_rdReg :
    (nextOf (exec (.rdReg 1) { encStart with cmdErr := true, cmdCause := .busy })).map State.returned
      = some (some 0x00000059#32) ∧
    (nextOf (exec (.rdReg 0) encDone)).map State.returned = some (some 0x00000000#32) ∧
    (nextOf (exec (.rdReg 5) encDone)).map State.returned = some (some 0x00000000#32) ∧
    (nextOf (exec (.rdReg 4) decError)).map State.returned = some (some 0x00039FA6#32) ∧
    (nextOf (exec (.rdReg 3) encDone)).map State.returned = some (some 0x00000004#32) := by decide

/-- H11, H13 and P1's IN_LEN. -/
theorem test_wrReg :
    nextOf (exec (.wrReg 2 3#32) encStart) = some encStart ∧ nextOf (exec (.wrReg 3 7#32) encDone) = some encDone ∧
    (nextOf (exec (.wrReg 2 1#32) State.reset)).map State.inLen = some 1#32 := by decide

/-- H10, H16 and P1's IN[0]. -/
theorem test_wrIn :
    nextOf (exec (.wrIn 0 0xFFFFFFFF#32) encStart) = some encStart ∧
    nextOf (exec (.wrIn 33 0x1#32) State.reset) = some State.reset ∧
    (nextOf (exec (.wrIn 0 0x12345678#32) State.reset)).map State.inBuf = some [(0, 0x12345678#32)] := by decide

/-- H16 and P1's IN[0]. -/
theorem test_rdIn :
    (nextOf (exec (.rdIn 33) oneWord)).map State.returned = some (some 0x00000000#32) ∧
    (nextOf (exec (.rdIn 0) oneWord)).map State.returned = some (some 0x12345678#32) := by decide

/-- P1's OUT[3], and 0 at CAP_OUT. -/
theorem test_rdOut :
    (nextOf (exec (.rdOut 3) encDone)).map State.returned = some (some 0x00002402#32) ∧
    (nextOf (exec (.rdOut 72) encDone)).map State.returned = some (some 0x00000000#32) := by decide

/-- R61: OUT[1] after P2 is outside the result, and OUT[0] after P3 is no result: each reads as a free value. -/
theorem test_rdOut_stale :
    exec (.rdOut 1) { decLast with state := .done, outLen := 1#32, l := 1, outEra := 2 }
      = .next { decLast with
          state := .done, outLen := 1#32, l := 1, outEra := 2, returned := some (Config.freeOut 2 1) } ∧
    exec (.rdOut 0) decError = .next { decError with returned := some (Config.freeOut 2 0) } := ⟨rfl, rfl⟩

/-- H15 and R151. -/
theorem test_ignored_writes :
    nextOf (exec (.wrOut 0 0x0#32) encDone) = some encDone ∧
    nextOf (exec (.accReserved true 7 0x5#32) encDone) = some encDone ∧
    (nextOf (exec (.accReserved false 7 0#32) encDone)).map State.returned = some (some 0x00000000#32) := by decide

/-- RS3: reset after P3. -/
theorem test_reset :
    (nextOf (step { decError with inputs := [.reset] })).map (fun t => (t.statusWord, t.errInfo, t.i, t.l, t.tb))
      = some (0x00000000#32, 0#32, 0, 0, 0#4) := by decide

/-- R83: `load` of two values, and the call `decode` of one unit. -/
theorem test_script :
    load [0x11#32, 0x22#32] = [.wrIn 0 0x11#32, .wrIn 1 0x22#32, .wrReg .inLen 2#32] ∧
    callDecode [0x240F#16] = [.wrIn 0 0x240F#32, .wrReg .inLen 1#32, .wrReg .cmd 2#32] ∧
    collect 2#32 = [.rdReg .outLen, .rdOut 0, .rdOut 1] ∧ waits 0x00000059#32 = true ∧
    waits 0x00000054#32 = false := by decide

/-- The state in which a table word comes next runs that word's instruction, from reset (log 4). -/
theorem test_withFetchWord :
    fetch (State.reset.withFetchWord 8 0b00000001) = .run .encDataIn (State.reset.readied selEncDataIn) ∧
    (State.reset.withFetchWord 8 0b00001001).enabledStep = some .encDataStraddle ∧
    (State.reset.withFetchWord 8 0b00010001).enabledStep = some .encTerm ∧
    (State.reset.withFetchWord 8 0b00000011).enabledStep = some .decPlaceIn ∧
    (State.reset.withFetchWord 8 0b00001011).enabledStep = some .decPlaceStraddle ∧
    (State.reset.withFetchWord 8 0b00010011).enabledStep = some .decTrim ∧
    (nextOf (step (State.reset.withFetchWord 8 0b00000010))).map State.statusWord = some 0x00000005#32 ∧
    (nextOf (step (State.reset.withFetchWord 8 0b00100011))).map State.errInfo = some 0x00030000#32 ∧
    (nextOf (step (State.reset.withFetchWord 32 0x00000001))).map State.statusWord = some 0x00000009#32 ∧
    (nextOf (step (State.reset.withFetchWord 16 0x2401))).map State.unitOut = some (some (.term 1#4)) := by decide

/-! ## Witnesses: the hypotheses of each statement, met -/

theorem witness_DecodeInvertsEncode :
    Instr.encode.wellFormed = true ∧ (Instr.refuse 0#32).wellFormed = true ∧ (Instr.toterm 1#4).wellFormed = true ∧
    (Instr.toterm 15#4).wellFormed = true ∧ (Instr.unitDataC 0xF4A3#16).wellFormed = true ∧
    (Instr.wrReg 2 5#32).wellFormed = true ∧ (Instr.accReserved true 7 5#32).wellFormed = true := by decide

theorem witness_DecodedInstructionIsWellFormed :
    decode (.unit 0x2401#16) = .ok (.unitTerm 1#4) ∧ decode (.access 0b11#2 0#1 7 5#32) = .ok (.accReserved false 7 0#32) := by
  decide

theorem witness_StepRunsTheDecodedInstruction :
    State.inputs { oneWord with inputs := [.issue lineEncode.access, .reset] } = .issue lineEncode.access :: [.reset] ∧
    decode lineEncode.access = .ok .encode := by decide

theorem witness_EngineTurnRunsTheEnabledStep :
    encStart.enabledStep = some .encDataIn ∧ encStart.inputs = [] ∧
    State.enabledStep { encStart with inputs := [.engine, .reset] } = some .encDataIn ∧
    State.inputs { encStart with inputs := [.engine, .reset] } = .engine :: [.reset] ∧
    encDone.enabledStep = none ∧ encDone.inputs = [] ∧ State.enabledStep { encDone with inputs := [.engine] } = none ∧
    State.inputs { encDone with inputs := [.engine] } = .engine :: [] := by decide

theorem witness_StepTakesOneEventAndKeepsTheParameters : nextOf (step encLast) = some encDone := by decide

theorem witness_EngineStepSelectionTable :
    encStart.enabledStep = some .encDataIn ∧ encStraddle.enabledStep = some .encDataStraddle ∧
    encLast.enabledStep = some .encTerm ∧ decStart.enabledStep = some .decTerm ∧
    decFirst.enabledStep = some .decPlaceIn ∧ decStraddle.enabledStep = some .decPlaceStraddle ∧
    decLast.enabledStep = some .decTrim ∧ decBad.enabledStep = some .decCharBad ∧ State.reset.state = .idle ∧
    encDone.state = .done ∧ decError.state = .error := by decide

theorem witness_EngineStepSelectionTable_inv :
    encStraddle.Inv ∧ encStraddle.busy = true ∧ decStraddle.Inv ∧ decStraddle.state = .decRun :=
  ⟨encStraddle_inv, by decide, decStraddle_inv, by decide⟩

/-- The offsets 17 and 18, where the two placements and the two data steps meet. -/
theorem witness_EngineStepSelectionTable_boundary :
    State.enabledStep { encStart with inLen := 15#32, nb := 480, i := 465 } = some .encDataIn ∧
    State.enabledStep { encStart with inLen := 15#32, nb := 480, i := 210 } = some .encDataStraddle ∧
    State.enabledStep { encStart with inLen := 15#32, nb := 480, i := 480 } = some .encTerm ∧
    State.enabledStep { decFirst with inLen := 33#32, i := 31, inBuf := [(31, 0xF4A3#32)] } = some .decPlaceIn ∧
    State.enabledStep { decFirst with inLen := 33#32, i := 14, inBuf := [(14, 0xF4A3#32)] }
      = some .decPlaceStraddle := by decide

theorem witness_EngineStepsRunOnlyWhereEnabled :
    EngineStep .encTerm ∧ encStart.enabledStep ≠ some .encTerm := ⟨by simp [EngineStep], by decide⟩

theorem witness_ResetPutsTheResetValues :
    State.inputs { encStraddle with inputs := [.reset, .engine] } = .reset :: [.engine] := by decide

theorem witness_StepKeepsTheInvariant : encLast.Inv ∧ nextOf (step encLast) = some encDone :=
  ⟨encLast_inv, by decide⟩

theorem witness_StepKeepsTheResultRight :
    (encStraddle.Inv ∧ encStraddle.ResultInv ∧ step encStraddle = .next encLast) ∧
    (decStraddle.Inv ∧ decStraddle.ResultInv ∧ step decStraddle = .next decLast) :=
  ⟨⟨encStraddle_inv, encStraddle_result, rfl⟩, ⟨decStraddle_inv, decStraddle_result, rfl⟩⟩

theorem witness_OnlyEmptyTrimStopsARun :
    (emptyTrimState.Inv ∧ step emptyTrimState = .fault .emptyTrim) ∧ (encStart.Inv ∧ encStart.EngineMoves) :=
  ⟨⟨emptyTrimState_inv, rfl⟩, ⟨encStart_inv, .inl rfl⟩⟩

theorem witness_FromcharGivesTheGroupOrFails :
    DataUnit (0x3400#16 : CodeUnit).toNat ∧ DataUnit (0xF4A3#16 : CodeUnit).toNat ∧
    ¬ DataUnit (0x4DB6#16 : CodeUnit).toNat ∧ ¬ DataUnit (0x33FF#16 : CodeUnit).toNat := by decide

theorem witness_TotermGivesTheTerminator : 1 ≤ (1#4 : TailCount).toNat ∧ 1 ≤ (15#4 : TailCount).toNat := by decide

theorem witness_FromtermGivesTheCountOrFails :
    TermUnit (0x2401#16 : CodeUnit).toNat ∧ TermUnit (0x240F#16 : CodeUnit).toNat ∧
    ¬ TermUnit (0x2400#16 : CodeUnit).toNat ∧ ¬ TermUnit (0x2410#16 : CodeUnit).toNat := by decide

theorem witness_MapperInverseLaws :
    DataUnit (0x4E00#16 : CodeUnit).toNat ∧ 1 ≤ (1#4 : TailCount).toNat ∧ tochar 5#15 = tochar 5#15 := by decide

theorem witness_CodeUnitRowsReadClassAndValue :
    1 ≤ (1#4 : TailCount).toNat ∧ (0x3400 ≤ (0x4DB5#16 : CodeUnit).toNat ∧ (0x4DB5#16 : CodeUnit).toNat ≤ 0x4DB5) ∧
    (0x4E00 ≤ (0x4E00#16 : CodeUnit).toNat ∧ (0x4E00#16 : CodeUnit).toNat ≤ 0x9FA5) ∧
    (0xE000 ≤ (0xF4A3#16 : CodeUnit).toNat ∧ (0xF4A3#16 : CodeUnit).toNat ≤ 0xF4A3) ∧
    (¬ DataUnit (0x2400#16 : CodeUnit).toNat ∧ ¬ TermUnit (0x2400#16 : CodeUnit).toNat) := by decide

theorem witness_RefusedCommandSetsOnlyItsCause :
    (CmdWriteForm .decode 0x00000002#32 ∧ encStart.busy = true) ∧
    (CmdWriteForm (.refuse 0x00000005#32) 0x00000005#32 ∧ encDone.busy = false ∧ 0x00000005#32 ≠ (0x00000001#32 : Word)
      ∧ 0x00000005#32 ≠ (0x00000002#32 : Word)) ∧
    (CmdWriteForm (.wrReg 0 0x00000001#32) 0x00000001#32 ∧ State.busy { State.reset with inLen := 34#32 } = false ∧
      State.reset.params.capIn < (34#32 : Word).toNat) :=
  ⟨⟨by simp [CmdWriteForm], by decide⟩, ⟨by simp [CmdWriteForm], by decide⟩, ⟨by simp [CmdWriteForm], by decide⟩⟩

theorem witness_EncodeCommandStarts :
    CmdWriteForm .encode 0x00000001#32 ∧ oneWord.busy = false ∧ oneWord.inLen.toNat ≤ oneWord.params.capIn ∧
    (33#32 : Word).toNat ≤ State.reset.params.capIn := ⟨by simp [CmdWriteForm], by decide⟩

theorem witness_DecodeCommandStarts :
    CmdWriteForm .decode 0x00000002#32 ∧ fourUnits.busy = false ∧ fourUnits.inLen.toNat ≤ fourUnits.params.capIn :=
  ⟨by simp [CmdWriteForm], by decide⟩

theorem witness_RegReadReturnsTheRegister : decError.Inv ∧ encStraddle.Inv := ⟨decError_inv, encStraddle_inv⟩

theorem witness_RegWriteStoresOnlyInLen :
    (2 ≠ 0 ∧ encDone.busy = false) ∧ (2 ≠ 0 ∧ encStart.busy = true) ∧ (1 ≠ 0 ∧ 1 ≠ 2) := by decide

theorem witness_InBufWriteStoresItsEntry :
    (32 < oneWord.params.capIn ∧ oneWord.busy = false) ∧ oneWord.params.capIn ≤ 33 ∧ encStart.busy = true := by decide

theorem witness_InBufReadReturnsTheEntry :
    (32 < oneWord.params.capIn ∧ oneWord.params.capIn ≤ 33) ∧ EngineStep .encTerm ∧
    exec .encTerm encLast = .next encDone := ⟨by decide, by simp [EngineStep], rfl⟩

theorem witness_OutBufReadReturnsTheResult :
    (3 < encDone.params.capOut ∧ encDone.state = .done ∧ 3 < encDone.outLen.toNat) ∧
    (1 < encStraddle.params.capOut ∧ encStraddle.state = .encRun ∧ 1 < encStraddle.oc) ∧
    (0 < decStraddle.params.capOut ∧ decStraddle.state = .decRun ∧ 0 < decStraddle.l) ∧
    (4 < encDone.params.capOut ∧ encDone.outLive ≤ 4) ∧ (71 < encDone.params.capOut ∧ encDone.outLive ≤ 71) ∧
    encDone.params.capOut ≤ 72 := by decide

theorem witness_HostReadsAreIdempotent :
    exec (.rdOut 3) encDone = .next { encDone with returned := some 0x00002402#32 } ∧
    exec (.accReserved false 7 0#32) encDone = .next { encDone with returned := some 0#32 } := ⟨rfl, rfl⟩

/-- P4's first line among them. -/
theorem witness_ScriptLinesDecodeToTheirRows :
    (0x00000003#32 : Word) ≠ 0x00000001#32 ∧ (0x00000003#32 : Word) ≠ 0x00000002#32 ∧ RegName.inLen ≠ .cmd ∧
    RegName.errInfo ≠ .cmd := by decide

theorem witness_LoadPlacesTheInput :
    State.busy { State.reset with inputs := (load [0x11#32, 0x22#32]).map Line.event ++ [.reset] } = false ∧
    [0x11#32, 0x22#32].length ≤ State.reset.params.capIn := by decide

theorem witness_EncDataInWritesTheGroup :
    encStart.state = .encRun ∧ encStart.i < encStart.nb ∧ encStart.i % 32 ≤ 17 ∧
    encStart.i / 32 < encStart.params.capIn ∧ encStart.oc < encStart.params.capOut := by decide

theorem witness_EncDataStraddleWritesTheGroup :
    encStraddle.state = .encRun ∧ encStraddle.i < encStraddle.nb ∧ 17 < encStraddle.i % 32 ∧
    encStraddle.i / 32 < encStraddle.params.capIn ∧ encStraddle.inLen.toNat ≤ encStraddle.params.capIn ∧
    encStraddle.oc < encStraddle.params.capOut := by decide

theorem witness_EncTermAppendsTheTerminator :
    encLast.state = .encRun ∧ encLast.nb ≤ encLast.i ∧ encLast.i ≤ encLast.nb + 14 ∧
    encLast.oc < encLast.params.capOut ∧ encLast.oc + 1 < 2 ^ 32 := by decide

/-- Entry 1, past IN_LEN = 1, holds other contents. -/
theorem witness_EncoderReadsNothingPastTheInput :
    encStraddle.Inv ∧ encStraddle.state = .encRun ∧
    (∀ k, k < encStraddle.inLen.toNat →
      State.inEntry { encStraddle with inBuf := [(0, 0x12345678#32), (1, 0xFFFFFFFF#32)] } k = encStraddle.inEntry k) ∧
    exec .encDataStraddle encStraddle = .next encLast := by
  refine ⟨encStraddle_inv, rfl, fun k hk => ?_, rfl⟩
  have hk : k < 1 := hk
  obtain rfl : k = 0 := by omega
  decide

theorem witness_EncodeHasNoErrorPath : encLast.Inv ∧ encLast.state = .encRun ∧ encLast.EngineMoves :=
  ⟨encLast_inv, rfl, .inl rfl⟩

theorem witness_EncodeCompletesWithTheEncoding :
    encStart.Inv ∧ encStart.state = .encRun ∧ encStart.oc = 0 ∧ encStart.inputs = [] ∧ 1 = encStart.inLen.toNat ∧
    3 = ceilDiv (32 * 1) 15 := ⟨encStart_inv, by decide⟩

theorem witness_DecTermChecksTheLastUnit :
    (State.inLen { State.reset with state := .decTerm }).toNat = 0 ∧
    (decStart.state = .decTerm ∧ 1 ≤ decStart.inLen.toNat ∧ decStart.inLen.toNat ≤ decStart.params.capIn ∧
      TermUnit (decStart.unitNat (decStart.inLen.toNat - 1))) ∧
    ¬ TermUnit (State.unitNat { decStart with inBuf := [(3, 0x2410#32)] } (decStart.inLen.toNat - 1)) := by decide

theorem witness_DecCharBadRaisesData :
    decBad.state = .decRun ∧ decBad.i + 1 < decBad.inLen.toNat ∧ decBad.i < decBad.params.capIn ∧
    ¬ DataUnit (decBad.unitNat decBad.i) := by decide

theorem witness_DecPlaceInOrsTheGroup :
    decFirst.state = .decRun ∧ decFirst.i + 1 < decFirst.inLen.toNat ∧ decFirst.i < decFirst.params.capIn ∧
    DataUnit (decFirst.unitNat decFirst.i) ∧ 0x091A = groupNat (decFirst.unitNat decFirst.i) ∧
    0 = 15 * decFirst.i / 32 ∧ 0 = (15 * decFirst.i) % 32 ∧ 0 ≤ 17 ∧ 0 < decFirst.params.capOut := by decide

theorem witness_DecPlaceStraddleOrsBothParts :
    decStraddle.state = .decRun ∧ decStraddle.i + 1 < decStraddle.inLen.toNat ∧
    decStraddle.i < decStraddle.params.capIn ∧ DataUnit (decStraddle.unitNat decStraddle.i) ∧
    0 = groupNat (decStraddle.unitNat decStraddle.i) ∧ 0 = 15 * decStraddle.i / 32 ∧
    30 = (15 * decStraddle.i) % 32 ∧ 17 < 30 ∧ 0 + 1 < decStraddle.params.capOut := by decide

theorem witness_PlacementExtendsByAtMostOne :
    decStraddle.Inv ∧ exec .decPlaceStraddle decStraddle = .next decLast := ⟨decStraddle_inv, rfl⟩

theorem witness_DecTrimDropsThePaddingWord :
    (emptyTrimState.state = .decRun ∧ emptyTrimState.i + 1 = emptyTrimState.inLen.toNat ∧ emptyTrimState.tb.toNat < 15 ∧
      emptyTrimState.l = 0 ∧ emptyTrimState.params.emptyTrim = .fault) ∧
    (decLast.state = .decRun ∧ decLast.i + 1 = decLast.inLen.toNat ∧
      ¬ (decLast.tb.toNat < 15 ∧ decLast.l = 0 ∧ decLast.params.emptyTrim = .fault)) := by decide

theorem witness_DecodeCompletesWithTheWords :
    decStart.Inv ∧ decStart.state = .decTerm ∧ decStart.inputs = [] ∧ decStart.inLen.toNat = 3 + 1 ∧
    TermUnit (decStart.unitNat 3) ∧ 2 = decStart.unitNat 3 - 0x2400 ∧ (∀ j, j < 3 → DataUnit (decStart.unitNat j)) ∧
    0 < 3 := ⟨decStart_inv, by decide⟩

/-- P3 right after its CMD write. -/
def decBadStart : State := { decBad with state := .decTerm, tb := 0#4, i := 0, l := 0, outBuf := [] }

theorem witness_DecodeReportsTheFirstInvalidUnit :
    decBadStart.Inv ∧ decBadStart.state = .decTerm ∧ decBadStart.inputs = [] ∧ decBadStart.inLen.toNat = 3 + 1 ∧
    TermUnit (decBadStart.unitNat 3) ∧ 1 < 3 ∧ (∀ x, x < 1 → DataUnit (decBadStart.unitNat x)) ∧
    ¬ DataUnit (decBadStart.unitNat 1) :=
  ⟨⟨by decide, by decide, by decide, by decide, ⟨.none, 0#16, by decide, by decide, by decide⟩, by decide, by decide,
    by decide, by decide, by decide, by decide, by decide⟩, by decide⟩

/-- P1's word, its end state, and P2's start state. -/
theorem witness_RoundTripGivesTheWordsBack :
    (oneWord.Inv ∧ oneWord.busy = false ∧ oneWord.inputs = [] ∧ oneWord.inLen.toNat ≤ oneWord.params.capIn ∧
      3 = ceilDiv (32 * oneWord.inLen.toNat) 15 ∧ 3 + 1 ≤ oneWord.params.capIn ∧ 3 + 1 < 2 ^ 32) ∧
    (exec .encode oneWord = .next encStart ∧ core.run (3 + 1) encStart = .next encDone ∧ encDone.state = .done) ∧
    (fourUnits.Inv ∧ fourUnits.busy = false ∧ fourUnits.inputs = [] ∧ fourUnits.params = encDone.params ∧
      fourUnits.inLen = encDone.outLen ∧
      ∀ j, j < encDone.outLen.toNat → fourUnits.inEntry j = encDone.outEntry j) :=
  ⟨⟨oneWord_inv, by decide⟩, ⟨rfl, rfl, rfl⟩, ⟨fourUnits_inv, by decide⟩⟩

/-- A host read, an engine turn and a reset to come; and P4's refused write with no reset. -/
theorem witness_EveryOperationEnds :
    (∀ e ∈ [lineWait.event, .engine, .reset], e = .reset ∨ e.EngineOrAccess) ∧
    (State.Inv { decStart with inputs := [lineWait.event, .engine, .reset] } ∧
      State.busy { decStart with inputs := [lineWait.event, .engine, .reset] } = true ∧
      decStart.params.emptyTrim = .noop) ∧
    (∀ e ∈ [lineDecode.event], e = .reset ∨ e.EngineOrAccess) ∧ (∀ e ∈ [lineDecode.event], e ≠ .reset) := by
  refine ⟨?_, ⟨⟨by decide, by decide, by decide, by decide, ⟨.none, 0#16, by decide, by decide, by decide⟩, by decide,
    by decide, by decide, by decide, by decide, by decide, by decide⟩, by decide⟩, ?_, by decide⟩
  · simp [Event.EngineOrAccess, Line.event, Line.access, lineWait]
  · simp [Event.EngineOrAccess, Line.event, Line.access, lineDecode]

/-- P4's refused CMD write before the last engine step of P1, and that step. -/
def encLastRefused : State := { encLast with inputs := [lineDecode.event, .engine] }

theorem witness_EveryInterleavingRunsTheSameOperation :
    (∀ e ∈ encLastRefused.inputs, e.EngineOrAccess) ∧
    (∀ j, j < 2 → ∃ u : State, core.run j encLastRefused = .next u ∧ u.busy = true) ∧
    core.run 2 encLastRefused = .next { encDone with cmdErr := true, cmdCause := .busy } := by
  refine ⟨by simp [encLastRefused, Event.EngineOrAccess, Line.event, Line.access, lineDecode], fun j hj => ?_, rfl⟩
  match j, hj with
  | 0, _ => exact ⟨encLastRefused, rfl, by decide⟩
  | 1, _ => exact ⟨{ encLast with inputs := [.engine], cmdErr := true, cmdCause := .busy }, rfl, by decide⟩

theorem witness_DoneResultStaysUntilCommandOrReset :
    (encDone.state = .done ∧ nextOf (step encDone) = some encDone ∧ ¬ encDone.CommandAccepted ∧ ¬ encDone.ResetNext ∧
      3 < encDone.outLen.toNat) ∧
    State.CommandAccepted { encDone with inputs := [lineEncode.event] } ∧
    State.ResetNext { encDone with inputs := [.reset] } :=
  ⟨⟨by decide, by decide, (by rintro ⟨⟨_, h⟩ | ⟨_, h⟩, -⟩ <;> cases h), (by rintro ⟨_, h⟩; cases h), by decide⟩,
    ⟨.inl ⟨[], rfl⟩, by decide, by decide⟩, ⟨[], rfl⟩⟩

theorem witness_BusyFreezesTheInput :
    encLast.busy = true ∧ ¬ encLast.ResetNext ∧ nextOf (step encLast) = some encDone ∧
    nextOf (step { encLast with inputs := [.issue (Line.wrIn 0 5#32).access] }) = some encLast :=
  ⟨by decide, (by rintro ⟨_, h⟩; cases h), by decide, by decide⟩

theorem witness_OnlyTheEngineWritesOutBuf :
    (Line.wrOut 0 5#32).access.format ≠ .engineStep ∧
    nextOf (step { encDone with inputs := [.issue (Line.wrOut 0 5#32).access] }) = some encDone := by decide

theorem witness_OnlyAnAcceptedCommandStarts :
    oneWord.busy = false ∧ nextOf (step { oneWord with inputs := [lineEncode.event] }) = some encStart ∧
    encStart.busy = true := by decide

theorem witness_ErrorStaysUntilCommandOrReset :
    (decError.state = .error ∧ nextOf (step decError) = some decError ∧ ¬ decError.CommandAccepted
      ∧ ¬ decError.ResetNext) ∧
    State.CommandAccepted { decError with inputs := [lineDecode.event] } ∧
    State.ResetNext { decError with inputs := [.reset] } :=
  ⟨⟨by decide, by decide, (by rintro ⟨⟨_, h⟩ | ⟨_, h⟩, -⟩ <;> cases h), (by rintro ⟨_, h⟩; cases h)⟩,
    ⟨.inr ⟨[], rfl⟩, by decide, by decide⟩, ⟨[], rfl⟩⟩

theorem witness_CmdErrDescribesTheLastCmdWrite :
    (¬ encStart.ResetNext ∧ ∀ v, ¬ encStart.CmdWriteNext v) ∧
    State.CommandAccepted { oneWord with inputs := [lineEncode.event] } ∧
    (State.CmdWriteNext { encStart with inputs := [lineDecode.event] } 0x00000002#32 ∧
      ¬ State.CommandAccepted { encStart with inputs := [lineDecode.event] }) :=
  ⟨⟨(by rintro ⟨_, h⟩; cases h), (by rintro _ ⟨_, h⟩; cases h)⟩, ⟨.inl ⟨[], rfl⟩, by decide, by decide⟩,
    ⟨⟨[], rfl⟩, fun ⟨_, h, _⟩ => absurd h (by decide)⟩⟩

theorem witness_ErrorEntryIsPrecise :
    decBad.state ≠ .error ∧ nextOf (step decBad) = some decError ∧ decError.state = .error := by decide

end Sys2Proof.Tests
end

section
/-! SUPPORT. The scope statements (00_scope.md R5, 20_memory.md R57): no instruction touches the events to come or the
parameters, so a step takes exactly its own event; and the state right after reset meets both invariants. -/

namespace Sys2Proof.Machine

open Sys2Proof

/-! ## What a CMD write keeps -/

/-- A field that the refusal and both starts keep is kept by every CMD write. -/
theorem State.cmdWrite_keeps {α : Type} (f : State → α) (s : State) (v : Word)
    (hrefuse : ∀ cause, f (s.refuse cause) = f s) (hencode : f s.startEncode = f s)
    (hdecode : f s.startDecode = f s) : f (s.cmdWrite v) = f s := by
  obtain ⟨cause, -, e⟩ | ⟨-, -, ⟨-, e⟩ | ⟨-, e⟩⟩ := s.cmdWrite_cases v <;> rw [e]
  · exact hrefuse cause
  · exact hencode
  · exact hdecode

@[simp] theorem State.cmdWrite_inputs (s : State) (v : Word) : (s.cmdWrite v).inputs = s.inputs :=
  s.cmdWrite_keeps State.inputs v (fun _ => rfl) rfl rfl

@[simp] theorem State.cmdWrite_params (s : State) (v : Word) : (s.cmdWrite v).params = s.params :=
  s.cmdWrite_keeps State.params v (fun _ => rfl) rfl rfl

/-! ## What every instruction keeps -/

/-- No instruction takes an event or writes a parameter: fetching takes the event (log 3), and nothing writes the
parameters (log 1). -/
theorem exec_keeps_inputs_params {s t : State} {i : Instr} (h : exec i s = .next t) :
    t.inputs = s.inputs ∧ t.params = s.params := by
  obtain hlines | ⟨v, -, rfl⟩ | ⟨-, v, rfl⟩ | ⟨-, k, v, -, rfl⟩ | ⟨-, -, -, hframe, -⟩ := exec_cases h
  · rw [hlines]
    exact ⟨rfl, rfl⟩
  · exact ⟨s.cmdWrite_inputs v, s.cmdWrite_params v⟩
  · exact ⟨rfl, rfl⟩
  · exact ⟨rfl, rfl⟩
  · rw [hframe]
    exact ⟨rfl, rfl⟩

/-- Settles O6: whatever the event comes to, it is taken off before anything runs, and what runs keeps the rest. -/
theorem stepTakesOneEventAndKeepsTheParameters : Obligations.StepTakesOneEventAndKeepsTheParameters := by
  intro s t h
  obtain ⟨r, hr, hturn⟩ | ⟨rest, hin, rfl⟩ | ⟨raw, rest, i, hin, -, hexec⟩ := step_cases h
  · have hfetched : r.inputs = s.inputs.tail ∧ r.params = s.params := by
      obtain ⟨hin, rfl⟩ | ⟨rest, hin, rfl⟩ := hr <;> simp [hin]
    have hkept : t.inputs = r.inputs ∧ t.params = r.params := by
      obtain ⟨i, -, hexec⟩ | ⟨-, rfl⟩ := hturn
      · exact exec_keeps_inputs_params hexec
      · exact ⟨rfl, rfl⟩
    rw [hkept.1, hkept.2]
    exact hfetched
  · simp [hin]
  · rw [hin]
    exact exec_keeps_inputs_params hexec

/-! ## The state right after reset -/

/-- Reset is IDLE with every register 0 and both buffers empty, so each clause about a running operation is about
no state and each bound is about 0 (R180). -/
theorem State.reset_inv : State.reset.Inv where
  params := by decide
  inWf := State.reset_wf.1
  outWf := State.reset_wf.2
  cause := by decide
  errForm := ⟨.none, 0#16, rfl, fun _ => rfl, by decide⟩
  outLenZero _ := rfl
  inLenFits := nofun
  encRegs := nofun
  decRegs := nofun
  decUnits := nofun
  counters := by decide
  busyWritten := nofun

/-- No operation runs right after reset, so nothing has been written that could be wrong. -/
theorem State.reset_resultInv : State.reset.ResultInv where
  enc := nofun
  dec := nofun

/-- Settles O10. -/
theorem resetStateMeetsTheInvariants : Obligations.ResetStateMeetsTheInvariants :=
  ⟨State.reset_inv, State.reset_resultInv⟩

end Sys2Proof.Machine
end

section
/-! SUPPORT. The statements of 10_state.md: the invariant of a run, kept by every step (R27, R29, R32, R54, R84, R100,
R122); what freezes the input, writes OUT_BUF, and writes CMD_ERR and CMD_CAUSE (R23, R29, R30); the numbers of STATUS
and ERR_INFO (R26 to R32); and the script's lines (R24, R82, R83). -/

namespace Sys2Proof.Machine

open Sys2Proof

/-! ## Taking an event off -/

/-- `s` with its next event taken off, if there is one (log 3). -/
def State.popped (s : State) : State := { s with inputs := s.inputs.tail }

/-- What every step does: take its event off, and then reset, or run the enabled engine step on the engine's turn
where there is one, or run the instruction a raw form decodes to. -/
theorem step_cases_popped {s t : State} (h : step s = .next t) :
    (s.ResetNext ∧ t = s.popped.afterReset) ∨ (s.EngineMoves ∧ s.popped.enabledStep = none ∧ t = s.popped) ∨
    ∃ i, exec i s.popped = .next t ∧
      ((s.EngineMoves ∧ s.popped.enabledStep = some i) ∨
        ∃ r rest, s.inputs = .issue r :: rest ∧ decode r = .ok i) := by
  obtain ⟨r, hr, hturn⟩ | ⟨rest, hin, rfl⟩ | ⟨raw, rest, i, hin, hdec, hexec⟩ := step_cases h
  · have hmoves : s.EngineMoves ∧ r = s.popped := by
      obtain ⟨hin, rfl⟩ | ⟨rest, hin, rfl⟩ := hr
      · refine ⟨.inl hin, ?_⟩
        rw [State.popped, hin, List.tail_nil, ← hin]
      · refine ⟨.inr ⟨rest, hin⟩, ?_⟩
        rw [State.popped, hin, List.tail_cons]
    obtain ⟨hmoves, rfl⟩ := hmoves
    obtain ⟨i, hi, hexec⟩ | ⟨hnone, rfl⟩ := hturn
    · exact .inr (.inr ⟨i, hexec, .inl ⟨hmoves, hi⟩⟩)
    · exact .inr (.inl ⟨hmoves, hnone, rfl⟩)
  · refine .inl ⟨⟨rest, hin⟩, ?_⟩
    rw [State.popped, hin, List.tail_cons]
  · refine .inr (.inr ⟨i, ?_, .inr ⟨raw, rest, hin, hdec⟩⟩)
    rw [State.popped, hin, List.tail_cons]
    exact hexec

/-! ## The pieces of the invariant -/

/-- ERR_INFO's form where no error is reported (R32, R165). -/
theorem errForm_of_none {e : Word} {q : SeqState} (he : e = errWord .none 0#16) (hq : q ≠ .error) :
    ∃ kind cp, e = errWord kind cp ∧ (kind = .none ∨ kind = .empty → cp = 0#16) ∧ (q = .error ↔ kind ≠ .none) :=
  ⟨.none, 0#16, he, fun _ => rfl, by simp [hq]⟩

/-- Outside ERROR the invariant leaves ERR_INFO no value but 0 (R27, R32). -/
theorem State.Inv.errInfo_of_ne_error {s : State} (h : s.Inv) (hs : s.state ≠ .error) :
    s.errInfo = errWord .none 0#16 := by
  obtain ⟨kind, cp, he, hcp, hkind⟩ := h.errForm
  have hnone : kind = .none := not_not.mp (mt hkind.mpr hs)
  rw [he, hnone, hcp (.inl hnone)]

theorem State.outLive_of_encRun {s : State} (h : s.state = .encRun) : s.outLive = s.oc := by
  rw [State.outLive, h]

theorem State.outLive_of_decRun {s : State} (h : s.state = .decRun) : s.outLive = s.l := by
  rw [State.outLive, h]

theorem State.not_busy_iff (s : State) :
    s.busy = false ↔ s.state ≠ .encRun ∧ s.state ≠ .decTerm ∧ s.state ≠ .decRun := by
  rw [← Bool.not_eq_true, State.busy_iff]
  simp only [not_or, ne_eq]

/-- FROMTERM never gives the count 0 (R93). -/
theorem fromterm_ne_zero {t : CodeUnit} {n : TailCount} (h : fromterm t = some n) : n ≠ 0#4 := by
  by_cases ht : TermUnit t.toNat
  · obtain ⟨m, hm, hnat⟩ := fromterm_of_term ht
    obtain rfl : m = n := Option.some.inj (hm.symm.trans h)
    rintro rfl
    simp only [BitVec.toNat_ofNat] at hnat
    omega
  · rw [fromterm_of_not_term ht] at h
    cases h

/-! ## What the host and reset do to the invariant -/

/-- The invariant says nothing of the events to come or of the output lines (logs 3, 8, 9, 10). -/
theorem State.Inv.withLines {s : State} (h : s.Inv) (inputs : List Event) (returned : Option Word)
    (mapOut : Option MapResult) (unitOut : Option UnitReading) :
    State.Inv { s with inputs := inputs, returned := returned, mapOut := mapOut, unitOut := unitOut } :=
  { h with }

theorem State.Inv.popped {s : State} (h : s.Inv) : s.popped.Inv := h.withLines _ _ _ _

/-- Reset puts every register at 0 in IDLE, within any capacities (R180). -/
theorem State.Inv.afterReset {s : State} (h : s.Inv) : s.afterReset.Inv where
  params := h.params
  inWf := Memory.wf_nil _
  outWf := Memory.wf_nil _
  cause := State.reset_inv.cause
  errForm := State.reset_inv.errForm
  outLenZero _ := rfl
  inLenFits := nofun
  encRegs := nofun
  decRegs := nofun
  decUnits := nofun
  counters := ⟨Nat.zero_le _, Nat.zero_le _, Nat.zero_le _, Nat.zero_le _⟩
  busyWritten := nofun

/-- IN_LEN is stored while no operation runs that depends on it (R146). -/
theorem State.Inv.storeInLen {s : State} (h : s.Inv) (hb : s.busy = false) (v : Word) :
    State.Inv { s with inLen := v } := by
  obtain ⟨henc, -, hdec⟩ := s.not_busy_iff.mp hb
  exact { h with
    inLenFits := fun hb' => absurd hb' (Bool.not_eq_true _ ▸ hb)
    encRegs := fun hs => absurd hs henc
    decRegs := fun hs => absurd hs hdec }

/-- An IN_BUF entry is stored below CAP_IN while no operation reads it (R147). -/
theorem State.Inv.storeInBuf {s : State} (h : s.Inv) (hb : s.busy = false) {k : Nat} (hk : k < s.params.capIn)
    (v : Word) : State.Inv { s with inBuf := s.inBuf.put k v } := by
  obtain ⟨-, -, hdec⟩ := s.not_busy_iff.mp hb
  exact { h with
    inWf := Memory.wf_put v h.inWf hk
    decUnits := fun hs => absurd hs hdec }

/-- REFUSE sets CMD_ERR with its cause (R144). -/
theorem State.Inv.refuse {s : State} (h : s.Inv) {cause : CmdCause} (hc : cause ≠ .none) : (s.refuse cause).Inv :=
  { h with cause := ⟨fun _ => hc, fun _ => rfl⟩ }

/-- START_ENCODE begins with nothing written and the cursor at 0 (R142). -/
theorem State.Inv.startEncode {s : State} (h : s.Inv) (hl : s.inLen.toNat ≤ s.params.capIn) : s.startEncode.Inv := by
  obtain ⟨-, -, -, hcl⟩ := h.counters
  exact { h with
    cause := by simp
    errForm := errForm_of_none rfl nofun
    outLenZero := fun _ => rfl
    inLenFits := fun _ => hl
    encRegs := fun _ => ⟨rfl, rfl, Nat.zero_le _⟩
    decRegs := nofun
    decUnits := nofun
    counters := ⟨Nat.zero_le _, Nat.mul_le_mul_left 32 hl, Nat.zero_le _, hcl⟩
    busyWritten := fun _ => nofun }

/-- START_DECODE leaves the registers to DEC_TERM (R143). -/
theorem State.Inv.startDecode {s : State} (h : s.Inv) (hl : s.inLen.toNat ≤ s.params.capIn) : s.startDecode.Inv :=
  { h with
    cause := by simp
    errForm := errForm_of_none rfl nofun
    outLenZero := fun _ => rfl
    inLenFits := fun _ => hl
    encRegs := nofun
    decRegs := nofun
    decUnits := nofun
    busyWritten := fun _ => nofun }

theorem State.Inv.cmdWrite {s : State} (h : s.Inv) (v : Word) : (s.cmdWrite v).Inv := by
  obtain ⟨cause, hc, e⟩ | ⟨-, hl, ⟨-, e⟩ | ⟨-, e⟩⟩ := s.cmdWrite_cases v <;> rw [e]
  · exact h.refuse hc
  · exact h.startEncode hl
  · exact h.startDecode hl

/-! ## What the engine does to the invariant -/

/-- An error ends the operation with no result, a KIND, and CP 0 where the kind is EMPTY (R161, R163). -/
theorem State.Inv.raise {s : State} (h : s.Inv) {kind : ErrKind} (hk : kind ≠ .none) {cp : CodeUnit}
    (hcp : kind = .empty → cp = 0#16) : (s.raise kind cp).Inv :=
  { h with
    errForm := ⟨kind, cp, rfl, fun hkind => hcp (hkind.resolve_left hk), by simp [hk]⟩
    outLenZero := fun _ => rfl
    inLenFits := nofun
    encRegs := nofun
    decRegs := nofun
    decUnits := nofun
    busyWritten := nofun }

/-- An encoder data step writes entry OC and moves OC by one and I by 15, at most 14 past NB (R100, R103, R104). -/
theorem State.Inv.afterUnit {s : State} (h : s.Inv) (hs : s.state = .encRun) (hi : s.i < s.nb)
    (ho : s.oc < s.params.capOut) (p : Group) : (s.afterUnit p).Inv := by
  obtain ⟨hnb, hio, -⟩ := h.encRegs hs
  obtain ⟨-, hcn, -, hcl⟩ := h.counters
  have hdec : s.state ≠ .decRun := by simp [hs]
  exact { h with
    outWf := Memory.wf_put _ h.outWf ho
    encRegs := fun _ => ⟨hnb, by simp only [State.afterUnit]; omega, by simp only [State.afterUnit]; omega⟩
    decRegs := fun hs' => absurd hs' hdec
    decUnits := fun hs' => absurd hs' hdec
    counters := ⟨by simp only [State.afterUnit]; omega, hcn, ho, hcl⟩
    busyWritten := fun hb k hk => by
      rw [State.outLive_of_encRun (by exact hs)] at hk
      simp only [State.afterUnit] at hk ⊢
      rw [Memory.find_put]
      split
      · rfl
      · exact h.busyWritten hb k (by rw [State.outLive_of_encRun hs]; omega) }

/-- ENC_TERM writes the last entry and completes (R105). -/
theorem State.Inv.afterEncTerm {s : State} (h : s.Inv) (hs : s.state = .encRun) (ho : s.oc < s.params.capOut) :
    s.afterEncTerm.Inv := by
  obtain ⟨hci, hcn, -, hcl⟩ := h.counters
  exact { h with
    outWf := Memory.wf_put _ h.outWf ho
    errForm := errForm_of_none (h.errInfo_of_ne_error (by simp [hs])) nofun
    outLenZero := fun hdone => absurd rfl hdone
    inLenFits := nofun
    encRegs := nofun
    decRegs := nofun
    decUnits := nofun
    counters := ⟨hci, hcn, ho, hcl⟩
    busyWritten := nofun }

/-- DEC_TERM on a terminator starts the run over the data units with nothing placed (R120). -/
theorem State.Inv.beginDecRun {s : State} (h : s.Inv) (hs : s.state = .decTerm) (hl : s.inLen.toNat ≠ 0)
    {n : TailCount} (hn : n ≠ 0#4) : State.Inv { s with tb := n, i := 0, l := 0, state := .decRun } := by
  obtain ⟨-, hcn, hco, -⟩ := h.counters
  have hb : s.busy = true := s.busy_iff.mpr (.inr (.inl hs))
  exact { h with
    errForm := errForm_of_none (h.errInfo_of_ne_error (by simp [hs])) nofun
    outLenZero := fun _ => h.outLenZero (by simp [hs])
    inLenFits := fun _ => h.inLenFits hb
    encRegs := nofun
    decRegs := fun _ => ⟨hn, Nat.one_le_iff_ne_zero.mpr hl, by simp [ceilDiv]⟩
    decUnits := fun _ => nofun
    counters := ⟨Nat.zero_le _, hcn, hco, Nat.zero_le _⟩
    busyWritten := fun _ => nofun }

/-- A placement moves I past a data unit, and extends L to the end `e` of the words the unit reaches, every entry up to
there written (R122, R124, R125). -/
theorem State.Inv.placed {s : State} (h : s.Inv) (hs : s.state = .decRun) (hi : s.i + 1 < s.inLen.toNat)
    (hd : isData (s.unitAt s.i) = true) {e : Nat} {m : Memory} (hl : max s.l e = ceilDiv (15 * (s.i + 1)) 32)
    (he : e ≤ s.params.capOut) (hwf : m.wf s.params.capOut = true)
    (hm : ∀ k, k < s.l ∨ k < e → (k < s.l → (s.outBuf.find k).isSome = true) → (m.find k).isSome = true) :
    State.Inv { s with i := s.i + 1, l := max s.l e, outBuf := m } := by
  obtain ⟨htb, -, -⟩ := h.decRegs hs
  obtain ⟨-, hcn, hco, hcl⟩ := h.counters
  have hfits := h.inLenFits (s.busy_iff.mpr (.inr (.inr hs)))
  have henc : s.state ≠ .encRun := by simp [hs]
  exact { h with
    outWf := hwf
    encRegs := fun hs' => absurd hs' henc
    decRegs := fun _ => ⟨htb, hi, hl⟩
    decUnits := fun _ k hk => by
      obtain hk | rfl := Nat.lt_succ_iff_lt_or_eq.mp hk
      · exact h.decUnits hs k hk
      · exact hd
    counters := ⟨by show s.i + 1 ≤ 32 * s.params.capIn + 14; omega, hcn, hco, max_le hcl he⟩
    busyWritten := fun hb k hk => by
      refine hm k (lt_max_iff.mp ?_) fun hkl => h.busyWritten hb k ?_
      · rwa [State.outLive_of_decRun (by exact hs)] at hk
      · rwa [State.outLive_of_decRun hs] }

/-- DEC_TRIM shortens L and completes (R126). -/
theorem State.Inv.trimmed {s : State} (h : s.Inv) (hs : s.state = .decRun) {n : Nat} (hn : n ≤ s.l) :
    State.Inv { s with l := n, outLen := lenWord n, state := .done, outEra := s.outEra + 1 } := by
  obtain ⟨hci, hcn, hco, hcl⟩ := h.counters
  exact { h with
    errForm := errForm_of_none (h.errInfo_of_ne_error (by simp [hs])) nofun
    outLenZero := fun hdone => absurd rfl hdone
    inLenFits := nofun
    encRegs := nofun
    decRegs := nofun
    decUnits := nofun
    counters := ⟨hci, hcn, hco, hn.trans hcl⟩
    busyWritten := nofun }

theorem State.trimmedLength_le {s : State} {n : Nat} (h : s.trimmedLength = .ok n) : n ≤ s.l := by
  obtain ⟨-, -, rfl⟩ | ⟨-, -, -, rfl⟩ | ⟨-, rfl⟩ := State.trimmedLength_eq_ok.mp h
  · exact Nat.sub_le _ _
  · exact Nat.zero_le _
  · exact le_refl _

/-- The words that cover one more unit, where it ends in the word it starts in and where it straddles (R121, R122). -/
theorem ceilDiv_unit_within {i : Nat} (h : 15 * i % 32 ≤ 17) :
    max (ceilDiv (15 * i) 32) (15 * i / 32 + 1) = ceilDiv (15 * (i + 1)) 32 := by
  unfold ceilDiv
  omega

theorem ceilDiv_unit_across {i : Nat} (h : 17 < 15 * i % 32) :
    max (ceilDiv (15 * i) 32) (15 * i / 32 + 2) = ceilDiv (15 * (i + 1)) 32 := by
  unfold ceilDiv
  omega

theorem execDecPlaceIn_inv {s t : State} (h : s.Inv) (hexec : execDecPlaceIn s = .next t) : t.Inv := by
  obtain ⟨hsel, hi, hw⟩ := execDecPlaceIn_next hexec
  obtain ⟨hs, hlen, hd, ho⟩ := State.selector_decPlaceIn.mp hsel
  obtain ⟨-, -, hl⟩ := h.decRegs hs
  obtain ⟨m, hm, hfind, hwf⟩ := execDecPlaceIn_spec hsel hi hw
  obtain rfl := Host.Outcome.next.inj (hm.symm.trans hexec)
  refine h.placed hs hlen hd (by rw [hl, ceilDiv_unit_within ho]) hw (hwf h.outWf) fun k hk hold => ?_
  simp only [hfind, apply_ite Option.isSome, Option.isSome_some]
  split_ifs
  · rfl
  · rfl
  · exact hold (by omega)

theorem execDecPlaceStraddle_inv {s t : State} (h : s.Inv) (hexec : execDecPlaceStraddle s = .next t) : t.Inv := by
  obtain ⟨hsel, hi, hw⟩ := execDecPlaceStraddle_next hexec
  obtain ⟨hs, hlen, hd, ho⟩ := State.selector_decPlaceStraddle.mp hsel
  obtain ⟨-, -, hl⟩ := h.decRegs hs
  obtain ⟨m, hm, hfind, hwf⟩ := execDecPlaceStraddle_spec hsel hi hw
  obtain rfl := Host.Outcome.next.inj (hm.symm.trans hexec)
  refine h.placed hs hlen hd (by rw [hl, ceilDiv_unit_across ho]) hw (hwf h.outWf) fun k hk hold => ?_
  simp only [hfind, apply_ite Option.isSome, Option.isSome_some]
  split_ifs
  · rfl
  · rfl
  · rfl
  · exact hold (by omega)

theorem execDecTerm_inv {s t : State} (h : s.Inv) (hexec : execDecTerm s = .next t) : t.Inv := by
  obtain ⟨hsel, ⟨-, rfl⟩ | ⟨hl, -, ⟨-, rfl⟩ | ⟨n, hn, rfl⟩⟩⟩ := execDecTerm_next.mp hexec
  · exact h.raise (kind := .empty) nofun fun _ => rfl
  · exact h.raise (kind := .term) nofun nofun
  · exact h.beginDecRun (State.selector_decTerm.mp hsel) hl (fromterm_ne_zero hn)

/-- Each of the eight engine steps keeps the invariant. -/
theorem engine_keeps_inv {s t : State} {i : Instr} (hi : EngineStep i) (h : s.Inv) (hexec : exec i s = .next t) :
    t.Inv := by
  obtain rfl | rfl | rfl | rfl | rfl | rfl | rfl | rfl := hi <;> simp only [exec] at hexec
  · obtain ⟨hsel, -, ho, rfl⟩ := execEncDataIn_next.mp hexec
    obtain ⟨hs, hlt, -⟩ := State.selector_encDataIn.mp hsel
    exact h.afterUnit hs hlt ho _
  · obtain ⟨hsel, -, -, ho, rfl⟩ := execEncDataStraddle_next.mp hexec
    obtain ⟨hs, hlt, -⟩ := State.selector_encDataStraddle.mp hsel
    exact h.afterUnit hs hlt ho _
  · obtain ⟨hsel, ho, rfl⟩ := execEncTerm_next.mp hexec
    obtain ⟨hs, -⟩ := State.selector_encTerm.mp hsel
    exact h.afterEncTerm hs ho
  · exact execDecTerm_inv h hexec
  · obtain ⟨-, -, rfl⟩ := execDecCharBad_next.mp hexec
    exact h.raise (kind := .data) nofun nofun
  · exact execDecPlaceIn_inv h hexec
  · exact execDecPlaceStraddle_inv h hexec
  · obtain ⟨hsel, n, hn, rfl⟩ := execDecTrim_next.mp hexec
    obtain ⟨hs, -⟩ := State.selector_decTrim.mp hsel
    exact h.trimmed hs (State.trimmedLength_le hn)

/-! ## The invariant of a run -/

theorem exec_keeps_inv {s t : State} {i : Instr} (h : s.Inv) (hexec : exec i s = .next t) : t.Inv := by
  obtain hlines | ⟨v, -, rfl⟩ | ⟨hb, v, rfl⟩ | ⟨hb, k, v, hk, rfl⟩ | ⟨hi, -, -⟩ := exec_cases hexec
  · rw [hlines]
    exact h.withLines _ _ _ _
  · exact h.cmdWrite v
  · exact h.storeInLen hb v
  · exact h.storeInBuf hb hk v
  · exact engine_keeps_inv hi h hexec

/-- Settles O11: taking the event off keeps the invariant, and so does whatever the event comes to. -/
theorem stepKeepsTheInvariant : Obligations.StepKeepsTheInvariant := by
  intro s t h hstep
  obtain ⟨-, rfl⟩ | ⟨-, -, rfl⟩ | ⟨i, hexec, -⟩ := step_cases_popped hstep
  · exact h.popped.afterReset
  · exact h.popped
  · exact exec_keeps_inv h.popped hexec

/-! ## What a step leaves as it was -/

/-- No instruction changes the input of a running operation: the host's stores are ignored, and the engine writes
neither (R147, R185). -/
theorem exec_keeps_input_of_busy {s t : State} {i : Instr} (hb : s.busy = true) (hexec : exec i s = .next t) :
    t.inLen = s.inLen ∧ t.inBuf = s.inBuf := by
  obtain hlines | ⟨v, -, rfl⟩ | ⟨hidle, -⟩ | ⟨hidle, -⟩ | ⟨-, -, -, hframe, -⟩ := exec_cases hexec
  · rw [hlines]
    exact ⟨rfl, rfl⟩
  · rw [State.cmdWrite_of_busy hb]
    exact ⟨rfl, rfl⟩
  · simp [hb] at hidle
  · simp [hb] at hidle
  · rw [hframe]
    exact ⟨rfl, rfl⟩

/-- Settles O51. -/
theorem busyFreezesTheInput : Obligations.BusyFreezesTheInput := by
  intro s t hb hreset hstep
  obtain ⟨hr, -⟩ | ⟨-, -, rfl⟩ | ⟨i, hexec, -⟩ := step_cases_popped hstep
  · exact absurd hr hreset
  · exact ⟨rfl, rfl⟩
  · exact exec_keeps_input_of_busy (s := s.popped) hb hexec

/-- The rows of the engine steps are those of the table's engine-step format (R84). -/
theorem format_of_engineStep {i : Instr} (h : EngineStep i) : i.format = .engineStep := by
  obtain rfl | rfl | rfl | rfl | rfl | rfl | rfl | rfl := h <;> rfl

theorem exec_keeps_outBuf {s t : State} {i : Instr} (hi : ¬ EngineStep i) (hexec : exec i s = .next t) :
    t.outBuf = s.outBuf := by
  obtain hlines | ⟨v, -, rfl⟩ | ⟨-, v, rfl⟩ | ⟨-, k, v, -, rfl⟩ | ⟨hengine, -⟩ := exec_cases hexec
  · rw [hlines]
  · exact s.cmdWrite_keeps State.outBuf v (fun _ => rfl) rfl rfl
  · rfl
  · rfl
  · exact absurd hengine hi

/-- Settles O52: what decodes from a raw form of another format is no engine step. -/
theorem onlyTheEngineWritesOutBuf : Obligations.OnlyTheEngineWritesOutBuf := by
  intro s t r rest hin hformat hstep
  obtain ⟨⟨_, hr⟩, -⟩ | ⟨-, -, rfl⟩ | ⟨i, hexec, ⟨hmoves, -⟩ | ⟨r', _, hin', hdec⟩⟩ := step_cases_popped hstep
  · simp [hin] at hr
  · rfl
  · simp [State.EngineMoves, hin] at hmoves
  · obtain ⟨rfl, -⟩ : r = r' ∧ _ := by simpa [hin] using hin'
    refine exec_keeps_outBuf (s := s.popped) (fun hi => hformat ?_) hexec
    rw [← format_of_decode hdec, format_of_engineStep hi]

/-! ## CMD_ERR and CMD_CAUSE -/

/-- A CMD write by its value: what the decoder reads from it runs R140's operation. -/
theorem exec_decodeCmd (v : Word) (s : State) : exec (decodeCmd v) s = .next (s.cmdWrite v) := by
  unfold decodeCmd
  split_ifs with hencode hdecode
  · rw [hencode]
    rfl
  · rw [hdecode]
    rfl
  · rfl

theorem step_of_cmdWriteNext {s : State} {v : Word} (h : s.CmdWriteNext v) : step s = .next (s.popped.cmdWrite v) := by
  obtain ⟨rest, hin⟩ := h
  rw [step, fetch, hin, State.popped, hin]
  exact exec_decodeCmd v _

/-- No engine step is a CMD write. -/
theorem not_cmdWriteForm_of_engineStep {i : Instr} (hi : EngineStep i) (v : Word) : ¬ CmdWriteForm i v := by
  obtain rfl | rfl | rfl | rfl | rfl | rfl | rfl | rfl := hi <;> simp [CmdWriteForm]

/-- The value of a CMD write is the one its row carries (R78). -/
theorem eq_of_cmdWriteForm_decodeCmd {data v : Word} (h : CmdWriteForm (decodeCmd data) v) : data = v := by
  unfold decodeCmd at h
  split_ifs at h with hencode hdecode <;> simp [CmdWriteForm] at h
  · rw [hencode, h]
  · rw [hdecode, h]
  · exact h

/-- A CMD write reaches the block as a write to REG index 0 and in no other raw form (R78, R79). -/
theorem eq_access_of_cmdWriteForm {r : Raw} {i : Instr} {v : Word} (hdec : decode r = .ok i)
    (hform : CmdWriteForm i v) : r = .access 0b00#2 1#1 0 v := by
  have hr : r.format = .hostAccess := by
    rw [← format_of_decode hdec]
    obtain ⟨rfl, -⟩ | ⟨rfl, -⟩ | rfl | rfl := hform <;> rfl
  cases r with
  | access space w index data =>
    simp only [decode, decodeAccess, Except.ok.injEq] at hdec
    split_ifs at hdec with hspace hw hindex <;> subst hdec
    · rw [hspace, hw, hindex, eq_of_cmdWriteForm_decodeCmd hform]
    · simp [CmdWriteForm, hindex] at hform
    all_goals simp [CmdWriteForm] at hform
  | selector | mapper | unit => cases hr

/-- Nothing but a CMD write touches CMD_ERR and CMD_CAUSE (R29). -/
theorem exec_keeps_cmdErr {s t : State} {i : Instr} (hi : ∀ v, ¬ CmdWriteForm i v) (hexec : exec i s = .next t) :
    t.cmdErr = s.cmdErr ∧ t.cmdCause = s.cmdCause := by
  obtain hlines | ⟨v, hform, -⟩ | ⟨-, v, rfl⟩ | ⟨-, k, v, -, rfl⟩ | ⟨-, -, -, hframe, -⟩ := exec_cases hexec
  · rw [hlines]
    exact ⟨rfl, rfl⟩
  · exact absurd hform (hi v)
  · exact ⟨rfl, rfl⟩
  · exact ⟨rfl, rfl⟩
  · rw [hframe]
    exact ⟨rfl, rfl⟩

theorem step_keeps_cmdErr {s t : State} (hreset : ¬ s.ResetNext) (hcmd : ∀ v, ¬ s.CmdWriteNext v)
    (hstep : step s = .next t) : t.cmdErr = s.cmdErr ∧ t.cmdCause = s.cmdCause := by
  obtain ⟨hr, -⟩ | ⟨-, -, rfl⟩ | ⟨i, hexec, hfrom⟩ := step_cases_popped hstep
  · exact absurd hr hreset
  · exact ⟨rfl, rfl⟩
  · refine exec_keeps_cmdErr (s := s.popped) (fun v hform => ?_) hexec
    obtain ⟨-, hi⟩ | ⟨r, rest, hin, hdec⟩ := hfrom
    · exact not_cmdWriteForm_of_engineStep (State.enabledStep_cases hi) v hform
    · exact hcmd v ⟨rest, by rw [hin, eq_access_of_cmdWriteForm hdec hform]⟩

/-- An accepted CMD write starts the operation its value names (R140). -/
theorem State.cmdWrite_of_accepted {s : State} {v : Word} (hv : v = 0x00000001#32 ∨ v = 0x00000002#32)
    (hb : s.busy = false) (hl : s.inLen.toNat ≤ s.params.capIn) :
    s.cmdWrite v = s.startEncode ∨ s.cmdWrite v = s.startDecode := by
  obtain rfl | rfl := hv <;> simp [State.cmdWrite, hb, Nat.not_lt.mpr hl]

/-- Any other CMD write is refused with the first cause of R140 that holds. -/
theorem State.cmdWrite_of_not_accepted {s : State} {v : Word}
    (h : ¬ ((v = 0x00000001#32 ∨ v = 0x00000002#32) ∧ s.busy = false ∧ s.inLen.toNat ≤ s.params.capIn)) :
    s.cmdWrite v = s.refuse (if s.busy then .busy
      else if v = 0x00000001#32 ∨ v = 0x00000002#32 then .length else .illegalOp) := by
  unfold State.cmdWrite
  split_ifs <;> simp_all

theorem State.CmdWriteNext.commandAccepted_iff {s : State} {v : Word} (h : s.CmdWriteNext v) :
    s.CommandAccepted ↔
      (v = 0x00000001#32 ∨ v = 0x00000002#32) ∧ s.busy = false ∧ s.inLen.toNat ≤ s.params.capIn := by
  obtain ⟨rest, hin⟩ := h
  simp [State.CommandAccepted, State.CmdWriteNext, hin]

/-- Settles O55: no event but a CMD write or a reset touches the two fields, and a CMD write is R140's operation. -/
theorem cmdErrDescribesTheLastCmdWrite : Obligations.CmdErrDescribesTheLastCmdWrite := by
  intro s t hstep
  refine ⟨fun hreset hcmd => step_keeps_cmdErr hreset hcmd hstep, fun hacc => ?_, fun v hv hacc => ?_⟩
  · obtain ⟨v, hv⟩ : ∃ v, s.CmdWriteNext v := hacc.1.elim (⟨_, ·⟩) (⟨_, ·⟩)
    obtain rfl := Host.Outcome.next.inj ((step_of_cmdWriteNext hv).symm.trans hstep)
    obtain ⟨hword, hb, hl⟩ := hv.commandAccepted_iff.mp hacc
    obtain e | e := State.cmdWrite_of_accepted (s := s.popped) hword hb hl <;> rw [e] <;> exact ⟨rfl, rfl⟩
  · obtain rfl := Host.Outcome.next.inj ((step_of_cmdWriteNext hv).symm.trans hstep)
    rw [State.cmdWrite_of_not_accepted (s := s.popped) (mt hv.commandAccepted_iff.mpr hacc)]
    exact ⟨rfl, rfl, rfl⟩

/-! ## The numbers of STATUS and ERR_INFO -/

/-- CP and KIND stand in separate bits of ERR_INFO, so the word is their sum (R32). -/
theorem errWord_toNat (kind : ErrKind) (cp : CodeUnit) :
    (errWord kind cp).toNat = cp.toNat + kind.code.toNat * 65536 := by
  have hkind : kind.code.toNat < 4 := kind.code.isLt
  have hshift : (kind.code.setWidth 32 <<< 16).toNat = kind.code.toNat <<< 16 := by
    rw [BitVec.toNat_shiftLeft, BitVec.toNat_setWidth_of_le (by decide), Nat.mod_eq_of_lt]
    rw [Nat.shiftLeft_eq]
    omega
  have hcp : (cp.setWidth 32).toNat = cp.toNat := BitVec.toNat_setWidth_of_le (by decide)
  rw [errWord, BitVec.toNat_or, hshift, hcp, Nat.or_comm, ← Nat.shiftLeft_add_eq_or_of_lt cp.isLt, Nat.shiftLeft_eq]
  omega

/-- BUSY is 1 in the STATEs 1, 2 and 3 alone (R28). -/
theorem State.busy_iff_code (s : State) :
    s.busy = true ↔ s.state.code = 1#3 ∨ s.state.code = 2#3 ∨ s.state.code = 3#3 := by
  rw [State.busy_iff]
  cases s.state <;> decide

/-- Settles O24: the codes are the tables of R26, R27 and R32 as they stand. -/
theorem statusFieldNumbers : Obligations.StatusFieldNumbers :=
  ⟨⟨rfl, rfl, rfl, rfl, rfl, rfl⟩, ⟨rfl, rfl, rfl, rfl⟩, ⟨rfl, rfl, rfl, rfl⟩, State.busy_iff_code, errWord_toNat⟩

/-! ## The script's lines -/

/-- A line that writes CMD is decoded by its value (R78, R82). -/
theorem decode_wrReg_cmd (v : Word) : decode (Line.wrReg .cmd v).access = .ok (decodeCmd v) := rfl

/-- The names other than CMD's have an index other than CMD's (R24). -/
theorem RegName.index_ne_zero {name : RegName} (h : name ≠ .cmd) : name.index ≠ 0 := by
  cases name with
  | cmd => exact absurd rfl h
  | status | inLen | outLen | errInfo => exact nofun

theorem decode_wrReg {name : RegName} (h : name ≠ .cmd) (v : Word) :
    decode (Line.wrReg name v).access = .ok (.wrReg name.index v) := by
  show Except.ok (if name.index = 0 then decodeCmd v else .wrReg name.index v) = _
  rw [if_neg (RegName.index_ne_zero h)]

theorem decodeCmd_of_no_command {v : Word} (hencode : v ≠ 0x00000001#32) (hdecode : v ≠ 0x00000002#32) :
    decodeCmd v = .refuse v := by
  rw [decodeCmd, if_neg hencode, if_neg hdecode]

/-- Settles O33: a CMD line is read by its value, and every other line is its tuple of R79. -/
theorem scriptLinesDecodeToTheirRows : Obligations.ScriptLinesDecodeToTheirRows := by
  intro k v
  refine ⟨rfl, rfl, rfl, rfl, fun hencode hdecode => ?_, fun _ => rfl, fun _ hname => decode_wrReg hname v, rfl, rfl,
    rfl, rfl⟩
  rw [decode_wrReg_cmd, decodeCmd_of_no_command hencode hdecode]

end Sys2Proof.Machine
end

section
/-! SUPPORT. What the running operation has written stays right (20_memory.md R51, R53): the groups the encoder's steps
read are the stream's, the words a placement gains are the unit's bits, and every step keeps both. -/

namespace Sys2Proof.Machine

open Sys2Proof

/-! ## Where no entry is claimed -/

/-- The result is claimed of ENC_RUN and DEC_RUN alone. -/
theorem State.resultInv_of_ne {s : State} (henc : s.state ≠ .encRun) (hdec : s.state ≠ .decRun) : s.ResultInv where
  enc hs := absurd hs henc
  dec hs := absurd hs hdec

theorem State.resultInv_of_not_busy {s : State} (hb : s.busy = false) : s.ResultInv :=
  State.resultInv_of_ne (s.not_busy_iff.mp hb).1 (s.not_busy_iff.mp hb).2.2

/-- The result says nothing of the events to come or of the output lines (logs 3, 8, 9, 10). -/
theorem State.ResultInv.withLines {s : State} (h : s.ResultInv) (inputs : List Event) (returned : Option Word)
    (mapOut : Option MapResult) (unitOut : Option UnitReading) :
    State.ResultInv { s with inputs := inputs, returned := returned, mapOut := mapOut, unitOut := unitOut } :=
  { h with }

theorem State.ResultInv.popped {s : State} (h : s.ResultInv) : s.popped.ResultInv := h.withLines _ _ _ _

/-- A refused command leaves the entries, and an accepted one starts with none claimed (R142, R143, R144). -/
theorem State.ResultInv.cmdWrite {s : State} (h : s.ResultInv) (v : Word) : (s.cmdWrite v).ResultInv := by
  obtain ⟨cause, -, e⟩ | ⟨-, -, ⟨-, e⟩ | ⟨-, e⟩⟩ := s.cmdWrite_cases v <;> rw [e]
  · exact { h with }
  · exact ⟨fun _ _ hg => absurd hg (Nat.not_lt_zero _), nofun⟩
  · exact State.resultInv_of_ne nofun nofun

/-! ## The encoder's groups -/

/-- Bit `b` of the group within one word is the stream's, counted down from the group's last bit (R51, R103). -/
theorem State.groupIn_getLsbD {s : State} (hi : s.i < 32 * s.inLen.toNat) (ho : s.i % 32 ≤ 17) {b : Nat}
    (hb : b < 15) : s.groupIn.getLsbD b = s.streamBit (s.i + 14 - b) := by
  have hword : (s.i + 14 - b) / 32 = s.i / 32 := by omega
  have hin : s.i + 14 - b < 32 * s.inLen.toNat := by omega
  have hbit : 31 - (s.i + 14 - b) % 32 = 17 - s.i % 32 + b := by omega
  simp [State.groupIn, groupWithin, State.streamBit, hb, hin, hword, hbit]

/-- The same of the group across two words, the second being 0 past the input (R51, R53, R104). -/
theorem State.groupAcross_getLsbD {s : State} (hi : s.i < 32 * s.inLen.toNat) (ho : 17 < s.i % 32) {b : Nat}
    (hb : b < 15) : s.groupAcross.getLsbD b = s.streamBit (s.i + 14 - b) := by
  by_cases hfirst : b < s.i % 32 - 17
  · have hword : (s.i + 14 - b) / 32 = s.i / 32 + 1 := by omega
    have hin : s.i + 14 - b < 32 * s.inLen.toNat ↔ s.i / 32 + 1 < s.inLen.toNat := by omega
    have hbit : 31 - (s.i + 14 - b) % 32 = 49 - s.i % 32 + b := by omega
    simp only [State.streamBit, hin, hword, hbit]
    by_cases hnext : s.i / 32 + 1 < s.inLen.toNat <;>
      simp [State.groupAcross, groupHigh, groupLow, State.wordAfter, hb, hfirst, hnext]
  · have hword : (s.i + 14 - b) / 32 = s.i / 32 := by omega
    have hin : s.i + 14 - b < 32 * s.inLen.toNat := by omega
    have hbit : 31 - (s.i + 14 - b) % 32 = b - (s.i % 32 - 17) := by omega
    have hlow : s.wordAfter.getLsbD (49 - s.i % 32 + b) = false := BitVec.getLsbD_of_ge _ _ (by omega)
    have hb32 : b < 32 := by omega
    simp [State.groupAcross, groupHigh, groupLow, State.streamBit, hb, hb32, hfirst, hin, hword, hbit, hlow]

/-- An encoder data step that writes the stream's next group keeps the entries right (R100). -/
theorem State.ResultInv.afterUnit {s : State} (h : s.ResultInv) (hinv : s.Inv) (hs : s.state = .encRun) {p : Group}
    (hp : ∀ b < 15, p.getLsbD b = s.streamBit (s.i + 14 - b)) : (s.afterUnit p).ResultInv where
  enc _ g hg := by
    have hentry : (s.afterUnit p).outEntry g = if g = s.oc then (tochar p).setWidth 32 else s.outEntry g :=
      State.outEntry_put (s := s) (t := s.afterUnit p) rfl rfl g
    obtain hlt | rfl := Nat.lt_succ_iff_lt_or_eq.mp hg
    · obtain ⟨q, hq, hbits⟩ := h.enc hs g hlt
      exact ⟨q, by rw [hentry, if_neg hlt.ne, hq], hbits⟩
    · obtain ⟨-, hi, -⟩ := hinv.encRegs hs
      refine ⟨p, by rw [hentry, if_pos rfl], fun b hb => ?_⟩
      rw [hp b hb, hi]
      rfl
  dec hs' := absurd (hs.symm.trans hs') nofun

/-! ## The decoder's placements -/

/-- What the cursor's unit adds to word `k`: the whole group, or its two parts (R124, R125). -/
def State.unitPart (s : State) (k : Nat) : Word :=
  if k = 15 * s.i / 32 then
    if 15 * s.i % 32 ≤ 17 then placeWithin s.cursorGroup (15 * s.i % 32)
    else placeHigh s.cursorGroup (15 * s.i % 32)
  else if k = 15 * s.i / 32 + 1 ∧ 17 < 15 * s.i % 32 then placeLow s.cursorGroup (15 * s.i % 32)
  else 0#32

theorem State.unitBit_of_cursor {s : State} {x : Nat} (hx : x / 15 = s.i) :
    s.unitBit x = s.cursorGroup.getLsbD (14 - x % 15) := by
  rw [State.unitBit, hx, State.cursorGroup]

/-- Bit `j` of a group, at an index that may reach past its 15 bits or below them, is the stream's bit there where the
cursor's unit holds it. -/
theorem State.cursorGroup_getLsbD {s : State} {x j : Nat} (hj : x + j = 15 * s.i + 14) :
    s.cursorGroup.getLsbD j = (decide (x / 15 = s.i) && s.unitBit x) := by
  by_cases hx : x / 15 = s.i
  · have hbit : 14 - x % 15 = j := by omega
    simp [State.unitBit_of_cursor hx, hx, hbit]
  · simp [hx, BitVec.getLsbD_of_ge s.cursorGroup j (by omega)]

/-- A word made of a group holds the group's bits, and zeros past them. -/
theorem getLsbD_setWidth_group (p : Group) (j : Nat) : (p.setWidth 32).getLsbD j = p.getLsbD j := by
  rw [BitVec.getLsbD_setWidth, Bool.and_eq_right_iff_imp, decide_eq_true_iff]
  exact fun hset => (BitVec.lt_of_getLsbD hset).trans (by decide)

/-- The cursor's unit adds its own 15 bits of the stream, and no other (R51, R121). -/
theorem State.unitPart_getLsbD (s : State) (x : Nat) :
    (s.unitPart (x / 32)).getLsbD (31 - x % 32) = (decide (x / 15 = s.i) && s.unitBit x) := by
  have hlt : 31 - x % 32 < 32 := by omega
  unfold State.unitPart
  split_ifs with hword ho hnext
  · by_cases hx : x ≤ 15 * s.i + 14
    · have hshift : ¬ 31 - x % 32 < 17 - 15 * s.i % 32 := by omega
      simpa [placeWithin, hlt, hshift] using State.cursorGroup_getLsbD (by omega)
    · have hshift : 31 - x % 32 < 17 - 15 * s.i % 32 := by omega
      have hunit : x / 15 ≠ s.i := by omega
      simp [placeWithin, hshift, hunit]
  · rw [placeHigh, BitVec.getLsbD_ushiftRight, getLsbD_setWidth_group]
    exact State.cursorGroup_getLsbD (by omega)
  · by_cases hx : x ≤ 15 * s.i + 14
    · have hshift : ¬ 31 - x % 32 < 49 - 15 * s.i % 32 := by omega
      simpa [placeLow, hlt, hshift] using State.cursorGroup_getLsbD (by omega)
    · have hshift : 31 - x % 32 < 49 - 15 * s.i % 32 := by omega
      have hunit : x / 15 ≠ s.i := by omega
      simp [placeLow, hshift, hunit]
  · have hunit : x / 15 ≠ s.i := by omega
    simp [hunit]

/-- `t` is `s` after a placement: I moves on by one, and every word L then covers keeps its bits, or starts at 0 where
EXTEND added it, and gains the unit's (R122, R124, R125). -/
structure State.Placed (s t : State) : Prop where
  decRun : s.state = .decRun
  frame : t = { s with i := s.i + 1, l := t.l, outBuf := t.outBuf }
  length : s.l ≤ t.l
  entry : ∀ k < t.l, t.outEntry k = (if s.l ≤ k then 0#32 else s.outEntry k) ||| s.unitPart k

theorem execDecPlaceIn_placed {s t : State} (hexec : execDecPlaceIn s = .next t) : s.Placed t := by
  obtain ⟨hsel, hi, hw⟩ := execDecPlaceIn_next hexec
  obtain ⟨hs, -, -, ho⟩ := State.selector_decPlaceIn.mp hsel
  obtain ⟨m, hm, hfind, -⟩ := execDecPlaceIn_spec hsel hi hw
  obtain rfl := Host.Outcome.next.inj (hm.symm.trans hexec)
  refine ⟨hs, rfl, le_max_left _ _, fun k hk => ?_⟩
  simp only [State.outEntry_def, hfind, State.unitPart]
  by_cases hword : k = 15 * s.i / 32
  · simp [hword, ho]
  · have hadded : s.l ≤ k → k ≤ 15 * s.i / 32 := by simp only at hk; omega
    by_cases hnew : s.l ≤ k
    · simp [hword, hnew, hadded, Nat.not_lt.mpr ho]
    · simp [hword, hnew, Nat.not_lt.mpr ho]

theorem execDecPlaceStraddle_placed {s t : State} (hexec : execDecPlaceStraddle s = .next t) : s.Placed t := by
  obtain ⟨hsel, hi, hw⟩ := execDecPlaceStraddle_next hexec
  obtain ⟨hs, -, -, ho⟩ := State.selector_decPlaceStraddle.mp hsel
  obtain ⟨m, hm, hfind, -⟩ := execDecPlaceStraddle_spec hsel hi hw
  obtain rfl := Host.Outcome.next.inj (hm.symm.trans hexec)
  refine ⟨hs, rfl, le_max_left _ _, fun k hk => ?_⟩
  simp only [State.outEntry_def, hfind, State.unitPart]
  by_cases hword : k = 15 * s.i / 32
  · simp [hword, Nat.not_le.mpr ho]
  · by_cases hnext : k = 15 * s.i / 32 + 1
    · simp [hnext, ho]
    · have hadded : s.l ≤ k → k ≤ 15 * s.i / 32 + 1 := by simp only at hk; omega
      by_cases hnew : s.l ≤ k
      · simp [hword, hnext, hnew, hadded]
      · simp [hword, hnext, hnew]

/-- A placement adds the next 15 bits of the stream to entries that hold those before them and zeros (R121). -/
theorem State.ResultInv.placed {s t : State} (h : s.ResultInv) (hinv : s.Inv) (hp : s.Placed t) : t.ResultInv where
  enc hs := by
    rw [hp.frame] at hs
    exact absurd (hp.decRun.symm.trans hs) nofun
  dec _ x hx := by
    obtain ⟨-, -, hl⟩ := hinv.decRegs hp.decRun
    unfold ceilDiv at hl
    have hold : (if s.l ≤ x / 32 then 0#32 else s.outEntry (x / 32)).getLsbD (31 - x % 32)
        = (decide (x < 15 * s.i) && s.unitBit x) := by
      split_ifs with hnew
      · have hpast : ¬ x < 15 * s.i := by omega
        simp [hpast]
      · exact h.dec hp.decRun x (by omega)
    have hi : t.i = s.i + 1 := by rw [hp.frame]
    have hunit : t.unitBit x = s.unitBit x := by rw [hp.frame]; rfl
    have hrange : decide (x < 15 * (s.i + 1)) = (decide (x < 15 * s.i) || decide (x / 15 = s.i)) := by
      rw [← Bool.decide_or, decide_eq_decide]
      omega
    rw [State.outBit, hp.entry _ (by omega), BitVec.getLsbD_or, hold, State.unitPart_getLsbD, hi, hunit, hrange,
      Bool.and_or_distrib_right]

/-! ## Every step -/

theorem execEncDataIn_resultInv {s t : State} (h : s.ResultInv) (hinv : s.Inv) (hexec : execEncDataIn s = .next t) :
    t.ResultInv := by
  obtain ⟨hsel, -, -, rfl⟩ := execEncDataIn_next.mp hexec
  obtain ⟨hs, hi, ho⟩ := State.selector_encDataIn.mp hsel
  obtain ⟨hnb, -, -⟩ := hinv.encRegs hs
  exact h.afterUnit hinv hs fun b hb => State.groupIn_getLsbD (hnb ▸ hi) ho hb

theorem execEncDataStraddle_resultInv {s t : State} (h : s.ResultInv) (hinv : s.Inv)
    (hexec : execEncDataStraddle s = .next t) : t.ResultInv := by
  obtain ⟨hsel, -, -, -, rfl⟩ := execEncDataStraddle_next.mp hexec
  obtain ⟨hs, hi, ho⟩ := State.selector_encDataStraddle.mp hsel
  obtain ⟨hnb, -, -⟩ := hinv.encRegs hs
  exact h.afterUnit hinv hs fun b hb => State.groupAcross_getLsbD (hnb ▸ hi) ho hb

/-- DEC_TERM starts with no entry to claim, or ends the operation (R120). -/
theorem execDecTerm_resultInv {s t : State} (hexec : execDecTerm s = .next t) : t.ResultInv := by
  obtain ⟨-, ⟨-, rfl⟩ | ⟨-, -, ⟨-, rfl⟩ | ⟨n, -, rfl⟩⟩⟩ := execDecTerm_next.mp hexec
  · exact State.resultInv_of_ne nofun nofun
  · exact State.resultInv_of_ne nofun nofun
  · exact ⟨nofun, fun _ _ hx => absurd hx (Nat.not_lt_zero _)⟩

/-- Each of the eight engine steps keeps what is written right; the three that end the operation claim nothing. -/
theorem engine_keeps_resultInv {s t : State} {i : Instr} (hi : EngineStep i) (h : s.ResultInv) (hinv : s.Inv)
    (hexec : exec i s = .next t) : t.ResultInv := by
  obtain rfl | rfl | rfl | rfl | rfl | rfl | rfl | rfl := hi <;> simp only [exec] at hexec
  · exact execEncDataIn_resultInv h hinv hexec
  · exact execEncDataStraddle_resultInv h hinv hexec
  · obtain ⟨-, -, rfl⟩ := execEncTerm_next.mp hexec
    exact State.resultInv_of_ne nofun nofun
  · exact execDecTerm_resultInv hexec
  · obtain ⟨-, -, rfl⟩ := execDecCharBad_next.mp hexec
    exact State.resultInv_of_ne nofun nofun
  · exact h.placed hinv (execDecPlaceIn_placed hexec)
  · exact h.placed hinv (execDecPlaceStraddle_placed hexec)
  · obtain ⟨-, n, -, rfl⟩ := execDecTrim_next.mp hexec
    exact State.resultInv_of_ne nofun nofun

theorem exec_keeps_resultInv {s t : State} {i : Instr} (h : s.ResultInv) (hinv : s.Inv)
    (hexec : exec i s = .next t) : t.ResultInv := by
  obtain hlines | ⟨v, -, rfl⟩ | ⟨hb, v, rfl⟩ | ⟨hb, k, v, -, rfl⟩ | ⟨hi, -, -⟩ := exec_cases hexec
  · rw [hlines]
    exact h.withLines _ _ _ _
  · exact h.cmdWrite v
  · exact State.resultInv_of_not_busy hb
  · exact State.resultInv_of_not_busy hb
  · exact engine_keeps_resultInv hi h hinv hexec

/-- Settles O12: a reset claims nothing, taking the event off changes no entry, and what the event comes to keeps the
result right. -/
theorem stepKeepsTheResultRight : Obligations.StepKeepsTheResultRight := by
  intro s t hinv h hstep
  obtain ⟨-, rfl⟩ | ⟨-, -, rfl⟩ | ⟨i, hexec, -⟩ := step_cases_popped hstep
  · exact State.resultInv_of_ne nofun nofun
  · exact h.popped
  · exact exec_keeps_resultInv h.popped hinv.popped hexec

end Sys2Proof.Machine
end

section
/-! SUPPORT. The statements of 20_memory.md about one step: what a step is for each kind of event (R57), what the host
reads (R55, R56, R61), what the encoder reads (R53), and how long a result stays (R58). -/

namespace Sys2Proof.Machine

open Sys2Proof

/-! ## A step, by its event -/

theorem step_of_issue {s : State} {r : Raw} {rest : List Event} {i : Instr} (hin : s.inputs = .issue r :: rest)
    (hdec : decode r = .ok i) : step s = exec i s.popped := by
  simp only [step, fetch, hin, hdec, State.popped, List.tail_cons]

theorem step_of_resetNext {s : State} (h : s.ResetNext) : step s = .next s.popped.afterReset := by
  obtain ⟨rest, hin⟩ := h
  simp only [step, fetch, hin, State.popped, List.tail_cons]

/-- Taking the event off does not change which step is enabled (R84). -/
@[simp] theorem State.popped_enabledStep (s : State) : s.popped.enabledStep = s.enabledStep := rfl

theorem State.popped_of_nil {s : State} (hin : s.inputs = []) : s.popped = s := by
  rw [State.popped, hin, List.tail_nil, ← hin]

/-- The engine's turn is the engine's move with the event, if there is one, taken off. -/
theorem fetch_of_engineMoves {s : State} (h : s.EngineMoves) : fetch s = fetchEngine s.popped := by
  obtain hin | ⟨rest, hin⟩ := h
  · rw [fetch, hin, State.popped_of_nil hin]
  · rw [fetch, hin, State.popped, hin, List.tail_cons]

theorem step_of_enabled {s : State} {i : Instr} (h : s.EngineMoves) (hi : s.enabledStep = some i) :
    step s = exec i s.popped := by
  rw [step, fetch_of_engineMoves h, fetchEngine, State.popped_enabledStep, hi]

theorem step_of_not_enabled {s : State} (h : s.EngineMoves) (hi : s.enabledStep = none) :
    step s = .next s.popped := by
  rw [step, fetch_of_engineMoves h, fetchEngine, State.popped_enabledStep, hi]

/-- Settles O4. -/
theorem stepRunsTheDecodedInstruction : Obligations.StepRunsTheDecodedInstruction := by
  intro s r rest i hin hdec
  rw [step_of_issue hin hdec, State.popped, hin, List.tail_cons]

/-- Settles O5: with no event left there is none to take off. -/
theorem engineTurnRunsTheEnabledStep : Obligations.EngineTurnRunsTheEnabledStep := by
  intro s
  refine ⟨fun i hi => ⟨fun hin => ?_, fun rest hin => ?_⟩, fun hi => ⟨fun hin => ?_, fun rest hin => ?_⟩⟩
  · rw [step_of_enabled (.inl hin) hi, State.popped_of_nil hin]
  · rw [step_of_enabled (.inr ⟨rest, hin⟩) hi, State.popped, hin, List.tail_cons]
  · rw [step_of_not_enabled (.inl hin) hi, State.popped_of_nil hin]
  · rw [step_of_not_enabled (.inr ⟨rest, hin⟩) hi, State.popped, hin, List.tail_cons]

/-! ## Host reads -/

/-- The instruction is a host read, and `value` is what it returns: a value that no read changes (R55, R79). -/
structure ReadsAs (i : Instr) (value : State → Word) : Prop where
  returns : ∀ s, exec i s = .next (s.hostReturn (value s))
  stable : ∀ s v, value (s.hostReturn v) = value s

theorem readsAs_rdReg (j : Nat) : ReadsAs (.rdReg j) (·.regValue j) := ⟨fun _ => rfl, fun _ _ => rfl⟩

theorem readsAs_rdIn (k : Nat) : ReadsAs (.rdIn k) (·.inHostValue k) := ⟨fun _ => rfl, fun _ _ => rfl⟩

theorem readsAs_rdOut (k : Nat) : ReadsAs (.rdOut k) (·.outHostValue k) := ⟨fun _ => rfl, fun _ _ => rfl⟩

theorem readsAs_accReserved (k : Nat) (v : Word) : ReadsAs (.accReserved false k v) fun _ => 0#32 :=
  ⟨fun _ => rfl, fun _ _ => rfl⟩

/-- A read done again finds the value it returned, and returns it again. -/
theorem ReadsAs.idempotent {i : Instr} {value : State → Word} (h : ReadsAs i value) {s t : State}
    (hexec : exec i s = .next t) :
    t = { s with returned := t.returned } ∧ t.returned ≠ none ∧ exec i t = .next t := by
  obtain rfl := Host.Outcome.next.inj ((h.returns s).symm.trans hexec)
  exact ⟨rfl, nofun, by rw [h.returns, h.stable]; rfl⟩

/-- Settles O32, by the value each form of read returns. -/
theorem hostReadsAreIdempotent : Obligations.HostReadsAreIdempotent := by
  rintro i s t (⟨j, rfl⟩ | ⟨k, rfl⟩ | ⟨k, rfl⟩ | ⟨k, v, rfl⟩) hexec
  · exact (readsAs_rdReg j).idempotent hexec
  · exact (readsAs_rdIn k).idempotent hexec
  · exact (readsAs_rdOut k).idempotent hexec
  · exact (readsAs_accReserved k v).idempotent hexec

/-- In DONE the live entries are the result's (R58, R187). -/
theorem State.outLive_of_done {s : State} (h : s.state = .done) : s.outLive = s.outLen.toNat := by
  rw [State.outLive, h]

theorem State.outHostValue_of_live {s : State} {k : Nat} (hk : k < s.params.capOut) (hl : k < s.outLive) :
    s.outHostValue k = s.outEntry k := by
  rw [State.outHostValue, if_pos hk, if_pos hl]

theorem State.outHostValue_of_not_live {s : State} {k : Nat} (hk : k < s.params.capOut) (hl : s.outLive ≤ k) :
    s.outHostValue k = Config.freeOut s.outEra k := by
  rw [State.outHostValue, if_pos hk, if_neg (Nat.not_lt.mpr hl)]

theorem State.outHostValue_of_cap_le {s : State} {k : Nat} (hk : s.params.capOut ≤ k) : s.outHostValue k = 0#32 :=
  if_neg (Nat.not_lt.mpr hk)

theorem exec_rdOut_of_live {s : State} {k n : Nat} (hk : k < s.params.capOut) (hlive : s.outLive = n) (hn : k < n) :
    exec (.rdOut k) s = .next { s with returned := some (s.outEntry k) } := by
  rw [(readsAs_rdOut k).returns, State.outHostValue_of_live hk (hlive ▸ hn)]
  rfl

/-- Settles O29: each STATE says how many entries are live, and the others read as R61's free value. -/
theorem outBufReadReturnsTheResult : Obligations.OutBufReadReturnsTheResult := by
  refine fun k s => ⟨fun hk hs => exec_rdOut_of_live hk (State.outLive_of_done hs),
    fun hk hs => exec_rdOut_of_live hk (State.outLive_of_encRun hs),
    fun hk hs => exec_rdOut_of_live hk (State.outLive_of_decRun hs), fun hk hl => ?_, fun hk => ?_⟩
  · rw [(readsAs_rdOut k).returns, State.outHostValue_of_not_live hk hl]
    rfl
  · rw [(readsAs_rdOut k).returns, State.outHostValue_of_cap_le hk]
    rfl

/-! ## The encoder reads its input alone -/

/-- `m` agrees with IN_BUF on the operation's input (R53). -/
def State.SameInput (s : State) (m : Memory) : Prop :=
  ∀ k, k < s.inLen.toNat → State.inEntry { s with inBuf := m } k = s.inEntry k

theorem State.SameInput.groupIn {s : State} {m : Memory} (h : s.SameInput m) (hi : s.i < 32 * s.inLen.toNat) :
    State.groupIn { s with inBuf := m } = s.groupIn := by
  have hword : s.i / 32 < s.inLen.toNat := by omega
  show groupWithin (State.inEntry { s with inBuf := m } (s.i / 32)) (s.i % 32) = _
  rw [h _ hword]
  rfl

/-- The word after the cursor's is read as 0 past the input, whatever IN_BUF holds there (R53). -/
theorem State.SameInput.wordAfter {s : State} {m : Memory} (h : s.SameInput m) :
    State.wordAfter { s with inBuf := m } = s.wordAfter := by
  show (if s.i / 32 + 1 < s.inLen.toNat then State.inEntry { s with inBuf := m } (s.i / 32 + 1) else 0#32) = _
  rw [State.wordAfter]
  split_ifs with hnext
  · exact h _ hnext
  · rfl

theorem State.SameInput.groupAcross {s : State} {m : Memory} (h : s.SameInput m) (hi : s.i < 32 * s.inLen.toNat) :
    State.groupAcross { s with inBuf := m } = s.groupAcross := by
  have hword : s.i / 32 < s.inLen.toNat := by omega
  show groupHigh (State.inEntry { s with inBuf := m } (s.i / 32)) (s.i % 32)
    ||| groupLow (State.wordAfter { s with inBuf := m }) (s.i % 32) = _
  rw [h _ hword, h.wordAfter]
  rfl

/-- In ENC_RUN the selection does not look at IN_BUF (R84). -/
theorem State.selector_withInBuf {s : State} (hs : s.state = .encRun) (m : Memory) :
    State.selector { s with inBuf := m } = s.selector := by
  simp only [State.selector, hs]

/-- Settles O38: each step's condition and each word it reads are the same with other contents past the input. -/
theorem encoderReadsNothingPastTheInput : Obligations.EncoderReadsNothingPastTheInput := by
  intro s t i m hinv hs hi hsame hexec
  obtain ⟨hnb, -, -⟩ := hinv.encRegs hs
  have hsel := State.selector_withInBuf hs m
  obtain rfl | rfl | rfl := hi <;> simp only [exec] at hexec ⊢
  · obtain ⟨hsel', hcap, ho, rfl⟩ := execEncDataIn_next.mp hexec
    obtain ⟨-, hlt, -⟩ := State.selector_encDataIn.mp hsel'
    refine execEncDataIn_next.mpr ⟨hsel.trans hsel', hcap, ho, ?_⟩
    rw [State.SameInput.groupIn hsame (hnb ▸ hlt)]
    rfl
  · obtain ⟨hsel', hcap, hnext, ho, rfl⟩ := execEncDataStraddle_next.mp hexec
    obtain ⟨-, hlt, -⟩ := State.selector_encDataStraddle.mp hsel'
    refine execEncDataStraddle_next.mpr ⟨hsel.trans hsel', hcap, hnext, ho, ?_⟩
    rw [State.SameInput.groupAcross hsame (hnb ▸ hlt)]
    rfl
  · obtain ⟨hsel', ho, rfl⟩ := execEncTerm_next.mp hexec
    exact execEncTerm_next.mpr ⟨hsel.trans hsel', ho, rfl⟩

/-! ## A result stays -/

/-- While no operation runs, a step that is no reset and no accepted command changes the host's fields and the input
alone (R58, R144, R146, R147). -/
theorem step_frame_of_not_busy {s t : State} (hb : s.busy = false) (hacc : ¬ s.CommandAccepted)
    (hreset : ¬ s.ResetNext) (hstep : step s = .next t) :
    t = { s with
      cmdErr := t.cmdErr, cmdCause := t.cmdCause, inLen := t.inLen, inBuf := t.inBuf, inputs := t.inputs
      returned := t.returned, mapOut := t.mapOut, unitOut := t.unitOut } := by
  have hnone : s.enabledStep = none := State.enabledStep_of_not_busy hb
  obtain ⟨hr, -⟩ | ⟨-, -, rfl⟩ | ⟨i, hexec, ⟨-, hi⟩ | ⟨r, rest, hin, hdec⟩⟩ := step_cases_popped hstep
  · exact absurd hr hreset
  · rfl
  · exact absurd (hnone.symm.trans hi) nofun
  · obtain hlines | ⟨v, hform, rfl⟩ | ⟨-, v, rfl⟩ | ⟨-, k, v, -, rfl⟩ | ⟨-, hi, -⟩ := exec_cases hexec
    · rw [hlines]
      rfl
    · have hv : s.CmdWriteNext v := ⟨rest, by rw [hin, eq_access_of_cmdWriteForm hdec hform]⟩
      rw [State.cmdWrite_of_not_accepted (s := s.popped) (mt hv.commandAccepted_iff.mpr hacc)]
      rfl
    · rfl
    · rfl
    · exact absurd (hnone.symm.trans hi) nofun

/-- An accepted command starts an operation with OUT_LEN 0 (R142, R143). -/
theorem step_of_commandAccepted {s t : State} (hacc : s.CommandAccepted) (hstep : step s = .next t) :
    t.busy = true ∧ t.outLen = 0#32 := by
  obtain ⟨v, hv⟩ : ∃ v, s.CmdWriteNext v := hacc.1.elim (⟨_, ·⟩) (⟨_, ·⟩)
  obtain rfl := Host.Outcome.next.inj ((step_of_cmdWriteNext hv).symm.trans hstep)
  obtain ⟨hword, hb, hl⟩ := hv.commandAccepted_iff.mp hacc
  obtain e | e := State.cmdWrite_of_accepted (s := s.popped) hword hb hl <;> rw [e] <;> exact ⟨rfl, rfl⟩

/-- Settles O57: in DONE no engine step is enabled, and what the host may still change is outside the result. -/
theorem doneResultStaysUntilCommandOrReset : Obligations.DoneResultStaysUntilCommandOrReset := by
  intro s t hs hstep
  have hb : s.busy = false := by rw [State.busy, hs]
  refine ⟨fun hacc hreset => ?_, fun hacc => step_of_commandAccepted hacc hstep, fun hreset => ?_⟩
  · rw [step_frame_of_not_busy hb hacc hreset hstep]
    exact ⟨hs, rfl, rfl, fun k _ => ⟨rfl, rfl⟩⟩
  · obtain rfl := Host.Outcome.next.inj ((step_of_resetNext hreset).symm.trans hstep)
    exact ⟨rfl, rfl⟩

end Sys2Proof.Machine
end

section
/-! SUPPORT. A running operation under any total order of events (20_memory.md R57, 70_reset_and_hazards.md R188): it is
the same in every interleaving with host accesses, and it ends. -/

namespace Sys2Proof.Machine

open Sys2Proof

/-! ## Events to come -/

/-- The next event, where each one to come is of R57's three kinds: with none left the engine moves (log 3). -/
theorem State.next_event_cases {s : State} (h : ∀ e ∈ s.inputs, e = .reset ∨ e.EngineOrAccess) :
    s.EngineMoves ∨ s.ResetNext ∨
      ∃ space w index data rest, s.inputs = .issue (.access space w index data) :: rest := by
  cases hin : s.inputs with
  | nil => exact .inl (.inl hin)
  | cons e rest =>
    obtain rfl | rfl | ⟨space, w, index, data, rfl⟩ := h e (by simp [hin])
    · exact .inr (.inl ⟨rest, hin⟩)
    · exact .inl (.inr ⟨rest, hin⟩)
    · exact .inr (.inr ⟨space, w, index, data, rest, rfl⟩)

theorem Event.EngineOrAccess.ne_reset {e : Event} (h : e.EngineOrAccess) : e ≠ .reset := by
  obtain rfl | ⟨_, _, _, _, rfl⟩ := h <;> exact nofun

theorem State.EngineMoves.othersIn_take {s : State} (h : s.EngineMoves) (k : Nat) :
    othersIn (s.inputs.take (k + 1)) = othersIn (s.inputs.tail.take k) := by
  obtain hin | ⟨rest, hin⟩ := h <;> simp [hin]

theorem othersIn_take_cons_of_ne {e : Event} (he : e ≠ .engine) (rest : List Event) (k : Nat) :
    othersIn ((e :: rest).take (k + 1)) = othersIn (rest.take k) + 1 := by
  cases e with
  | engine => exact absurd rfl he
  | reset | issue => simp

/-! ## The same operation in every interleaving -/

theorem State.SameButForHost.trans {t u v : State} (htu : t.SameButForHost u) (huv : u.SameButForHost v) :
    t.SameButForHost v := by
  obtain ⟨g, rfl⟩ := State.sameButForHost_iff.mp htu
  obtain ⟨h, rfl⟩ := State.sameButForHost_iff.mp huv
  rfl

theorem State.popped_sameButForHost (s : State) : s.popped.SameButForHost s := rfl

/-- A host access while BUSY = 1 changes the host's fields alone (R141, R146, R147). -/
theorem step_of_access_of_busy {s : State} (hb : s.busy = true) {space : BitVec 2} {w : BitVec 1} {index : Nat}
    {data : Word} {rest : List Event} (hin : s.inputs = .issue (.access space w index data) :: rest) :
    ∃ t, step s = .next t ∧ t.SameButForHost s := by
  obtain ⟨t, hexec, -, hsame⟩ := exec_access_of_busy (s := s.popped) hb space w index data
  exact ⟨t, (step_of_issue hin rfl).trans hexec, hsame.trans s.popped_sameButForHost⟩

/-- The engine's turn from a state that differs in the host's fields is the engine's turn alone, and leaves such a
state. -/
theorem step_engineMoves_sameButForHost {s t u : State} (hsame : s.SameButForHost u) (hu : u.inputs = [])
    (hmoves : s.EngineMoves) (hstep : step s = .next t) :
    ∃ v, step u = .next v ∧ t.SameButForHost v ∧ v.inputs = [] := by
  obtain ⟨g, rfl⟩ := State.sameButForHost_iff.mp hsame
  have henabled : (u.withHostOf g).enabledStep = u.enabledStep := rfl
  cases hi : u.enabledStep with
  | some i =>
    rw [step_of_enabled hmoves (henabled.trans hi)] at hstep
    refine ⟨t.withHostOf u, ?_, rfl, hu⟩
    rw [step_of_enabled (.inl hu) hi, State.popped_of_nil hu]
    exact exec_withHostOf (s := (u.withHostOf g).popped) u (State.enabledStep_cases hi) hstep
  | none =>
    obtain rfl := Host.Outcome.next.inj ((step_of_not_enabled hmoves (henabled.trans hi)).symm.trans hstep)
    exact ⟨u, by rw [step_of_not_enabled (.inl hu) hi, State.popped_of_nil hu], rfl, hu⟩

/-- What is true along a run from `s` is true along the run from its next state. -/
theorem run_busy_tail {s v : State} {m : Nat} (hstep : step s = .next v)
    (hbusy : ∀ j, j < m + 1 → ∃ u : State, core.run j s = .next u ∧ u.busy = true) :
    ∀ j, j < m → ∃ u : State, core.run j v = .next u ∧ u.busy = true := by
  intro j hj
  obtain ⟨u, hrun, hu⟩ := hbusy (j + 1) (Nat.succ_lt_succ hj)
  obtain ⟨v', hstep', hrun'⟩ := run_succ_eq_next.mp hrun
  obtain rfl := Host.Outcome.next.inj (hstep.symm.trans hstep')
  exact ⟨u, hrun', hu⟩

/-- The run with host accesses and the engine alone go side by side: the engine's turns are taken in both, the accesses
in the first alone. -/
theorem run_sameButForHost {m : Nat} {s u t : State} (hevents : ∀ e ∈ s.inputs, e.EngineOrAccess)
    (hsame : s.SameButForHost u) (hu : u.inputs = [])
    (hbusy : ∀ j, j < m → ∃ v : State, core.run j s = .next v ∧ v.busy = true) (hrun : core.run m s = .next t) :
    ∃ (a : Nat) (v : State), a + othersIn (s.inputs.take m) = m ∧ core.run a u = .next v ∧ t.SameButForHost v := by
  induction m generalizing s u with
  | zero =>
    obtain rfl := Host.Outcome.next.inj hrun
    exact ⟨0, u, rfl, rfl, hsame⟩
  | succ m ih =>
    obtain ⟨s', hstep, hrun⟩ := run_succ_eq_next.mp hrun
    obtain ⟨hinputs, -⟩ := stepTakesOneEventAndKeepsTheParameters s s' hstep
    have hevents' : ∀ e ∈ s'.inputs, e.EngineOrAccess := fun e he =>
      hevents e (List.mem_of_mem_tail (hinputs ▸ he))
    have hbusy' := run_busy_tail hstep hbusy
    obtain hmoves | ⟨rest, hin⟩ | ⟨space, w, index, data, rest, hin⟩ :=
      State.next_event_cases fun e he => .inr (hevents e he)
    · obtain ⟨u', hstepu, hsame', hu'⟩ := step_engineMoves_sameButForHost hsame hu hmoves hstep
      obtain ⟨a, v, hcount, hruna, hv⟩ := ih hevents' hsame' hu' hbusy' hrun
      refine ⟨a + 1, v, ?_, run_succ_eq_next.mpr ⟨u', hstepu, hruna⟩, hv⟩
      rw [hmoves.othersIn_take, ← hinputs]
      omega
    · exact absurd rfl (hevents .reset (by simp [hin])).ne_reset
    · obtain ⟨s₀, hrun₀, hb⟩ := hbusy 0 (Nat.succ_pos m)
      obtain rfl := Host.Outcome.next.inj hrun₀
      obtain ⟨s'', hstep', hsame'⟩ := step_of_access_of_busy hb hin
      obtain rfl := Host.Outcome.next.inj (hstep.symm.trans hstep')
      obtain ⟨a, v, hcount, hruna, hv⟩ := ih hevents' (hsame'.trans hsame) hu hbusy' hrun
      refine ⟨a, v, ?_, hruna, hv⟩
      rw [hin, othersIn_take_cons_of_ne (e := .issue _) nofun]
      rw [hinputs, hin, List.tail_cons] at hcount
      omega

/-- Settles O58: the engine alone starts from the same state with no event to come. -/
theorem everyInterleavingRunsTheSameOperation : Obligations.EveryInterleavingRunsTheSameOperation :=
  fun s _ _ hevents hbusy hrun => run_sameButForHost (u := { s with inputs := [] }) hevents rfl rfl hbusy hrun

/-! ## The engine gets on -/

/-- How many turns the engine has yet to take, at most (R188): one for each group or unit left and one that ends the
operation. -/
def State.turnsLeft (s : State) : Nat :=
  match s.state with
  | .encRun => ceilDiv (s.nb - s.i) 15 + 1
  | .decTerm => s.inLen.toNat + 1
  | .decRun => s.inLen.toNat - s.i
  | .idle | .done | .error => 0

theorem State.turnsLeft_of_encRun {s : State} (h : s.state = .encRun) :
    s.turnsLeft = ceilDiv (s.nb - s.i) 15 + 1 := by
  rw [State.turnsLeft, h]

theorem State.turnsLeft_of_decTerm {s : State} (h : s.state = .decTerm) : s.turnsLeft = s.inLen.toNat + 1 := by
  rw [State.turnsLeft, h]

theorem State.turnsLeft_of_decRun {s : State} (h : s.state = .decRun) : s.turnsLeft = s.inLen.toNat - s.i := by
  rw [State.turnsLeft, h]

/-- An operation has no more turns left than R188 allows it on an input of its length. -/
theorem State.turnsLeft_le {s : State} (hinv : s.Inv) : s.turnsLeft ≤ ceilDiv (32 * s.inLen.toNat) 15 + 1 := by
  unfold State.turnsLeft ceilDiv
  split
  case h_1 hs =>
    obtain ⟨hnb, -, -⟩ := hinv.encRegs hs
    omega
  all_goals omega

/-- An engine step is enabled, answers, and leaves fewer turns, in a STATE an operation has reached. -/
def State.Progresses (s : State) : Prop :=
  ∃ i t, s.enabledStep = some i ∧ exec i s = .next t ∧ t.turnsLeft < s.turnsLeft ∧ t.state ≠ .idle

theorem State.enabledStep_of_selector {s : State} {sel : BitVec 8} {i : Instr} (hsel : s.selector = sel)
    (hdec : decodeSelector sel = .ok i) : s.enabledStep = some i :=
  State.enabledStep_eq_some.mpr (hsel ▸ hdec)

/-- The encoder's next entry exists (R5, R54). -/
theorem State.Inv.oc_lt_capOut {s : State} (h : s.Inv) (hs : s.state = .encRun) : s.oc < s.params.capOut := by
  obtain ⟨-, hcap⟩ := h.params
  obtain ⟨hnb, hi, hle⟩ := h.encRegs hs
  have hfits := h.inLenFits (s.busy_iff.mpr (.inl hs))
  unfold ceilDiv at hcap
  omega

/-- The words a placement reaches exist (R5, R54). -/
theorem State.Inv.placement_lt_capOut {s : State} (h : s.Inv) (hi : s.i < s.params.capIn) :
    15 * s.i / 32 + 1 < s.params.capOut := by
  obtain ⟨-, hcap⟩ := h.params
  unfold ceilDiv at hcap
  omega

theorem State.progresses_of_afterUnit {s : State} {i : Instr} {p : Group} (hs : s.state = .encRun) (hi : s.i < s.nb)
    (henabled : s.enabledStep = some i) (hexec : exec i s = .next (s.afterUnit p)) : s.Progresses := by
  have hs' : (s.afterUnit p).state = .encRun := hs
  refine ⟨i, _, henabled, hexec, ?_, by rw [hs']; nofun⟩
  rw [State.turnsLeft_of_encRun hs, State.turnsLeft_of_encRun hs']
  simp only [State.afterUnit, ceilDiv]
  omega

theorem State.progresses_of_encRun {s : State} (hinv : s.Inv) (hs : s.state = .encRun) : s.Progresses := by
  have ho := hinv.oc_lt_capOut hs
  obtain ⟨hnb, -, -⟩ := hinv.encRegs hs
  have hfits := hinv.inLenFits (s.busy_iff.mpr (.inl hs))
  by_cases hi : s.i < s.nb
  · have hcap : s.i / 32 < s.params.capIn := by omega
    by_cases hwithin : s.i % 32 ≤ 17
    · have hsel := State.selector_encDataIn.mpr ⟨hs, hi, hwithin⟩
      exact State.progresses_of_afterUnit hs hi (State.enabledStep_of_selector hsel rfl)
        (execEncDataIn_next.mpr ⟨hsel, hcap, ho, rfl⟩)
    · have hsel := State.selector_encDataStraddle.mpr ⟨hs, hi, Nat.lt_of_not_le hwithin⟩
      exact State.progresses_of_afterUnit hs hi (State.enabledStep_of_selector hsel rfl)
        (execEncDataStraddle_next.mpr ⟨hsel, hcap, fun hnext => hnext.trans_le hfits, ho, rfl⟩)
  · have hsel := State.selector_encTerm.mpr ⟨hs, Nat.le_of_not_lt hi⟩
    refine ⟨.encTerm, s.afterEncTerm, State.enabledStep_of_selector hsel rfl,
      execEncTerm_next.mpr ⟨hsel, ho, rfl⟩, ?_, nofun⟩
    rw [State.turnsLeft_of_encRun hs]
    exact Nat.succ_pos _

/-- An error ends the operation, whatever turns were left. -/
theorem State.progresses_of_raise {s : State} {i : Instr} {kind : ErrKind} {cp : CodeUnit}
    (henabled : s.enabledStep = some i) (hexec : exec i s = .next (s.raise kind cp)) (hleft : 0 < s.turnsLeft) :
    s.Progresses :=
  ⟨i, _, henabled, hexec, hleft, nofun⟩

theorem State.progresses_of_decTerm {s : State} (hinv : s.Inv) (hs : s.state = .decTerm) : s.Progresses := by
  have hfits := hinv.inLenFits (s.busy_iff.mpr (.inr (.inl hs)))
  have hsel := State.selector_decTerm.mpr hs
  have henabled : s.enabledStep = some .decTerm := State.enabledStep_of_selector hsel rfl
  have hleft := State.turnsLeft_of_decTerm hs
  have hpos : 0 < s.turnsLeft := by omega
  by_cases hz : s.inLen.toNat = 0
  · exact State.progresses_of_raise henabled (execDecTerm_next.mpr ⟨hsel, .inl ⟨hz, rfl⟩⟩) hpos
  · have hcap : s.inLen.toNat - 1 < s.params.capIn := by omega
    cases hterm : fromterm (s.unitAt (s.inLen.toNat - 1)) with
    | none =>
      exact State.progresses_of_raise henabled
        (execDecTerm_next.mpr ⟨hsel, .inr ⟨hz, hcap, .inl ⟨hterm, rfl⟩⟩⟩) hpos
    | some n =>
      refine ⟨.decTerm, _, henabled, execDecTerm_next.mpr ⟨hsel, .inr ⟨hz, hcap, .inr ⟨n, hterm, rfl⟩⟩⟩, ?_, nofun⟩
      rw [hleft]
      exact Nat.lt_succ_self _

/-- With EMPTY_TRIM = NOOP the trim has a length in every case (R126). -/
theorem State.trimmedLength_of_noop {s : State} (hnoop : s.params.emptyTrim = .noop) :
    ∃ n, s.trimmedLength = .ok n := by
  by_cases ht : s.tb.toNat < 15
  · obtain hl | hl := Nat.eq_zero_or_pos s.l
    · exact ⟨0, State.trimmedLength_eq_ok.mpr (.inr (.inl ⟨ht, hl, hnoop, rfl⟩))⟩
    · exact ⟨s.l - 1, State.trimmedLength_eq_ok.mpr (.inl ⟨ht, hl, rfl⟩)⟩
  · exact ⟨s.l, State.trimmedLength_eq_ok.mpr (.inr (.inr ⟨Nat.le_of_not_lt ht, rfl⟩))⟩

theorem State.progresses_of_placed {s t : State} {i : Instr} (hi : s.i + 1 < s.inLen.toNat)
    (henabled : s.enabledStep = some i) (hexec : exec i s = .next t) (hp : s.Placed t) : s.Progresses := by
  have hs' : t.state = .decRun := by rw [hp.frame]; exact hp.decRun
  have hleft : t.turnsLeft = s.inLen.toNat - (s.i + 1) := by
    rw [State.turnsLeft_of_decRun hs', hp.frame]
  refine ⟨i, t, henabled, hexec, ?_, by rw [hs']; nofun⟩
  rw [hleft, State.turnsLeft_of_decRun hp.decRun]
  omega

theorem State.progresses_of_decRun {s : State} (hinv : s.Inv) (hs : s.state = .decRun)
    (hnoop : s.params.emptyTrim = .noop) : s.Progresses := by
  have hfits := hinv.inLenFits (s.busy_iff.mpr (.inr (.inr hs)))
  obtain ⟨-, hle, -⟩ := hinv.decRegs hs
  have hleft := State.turnsLeft_of_decRun hs
  have hpos : 0 < s.turnsLeft := by omega
  have hcap : s.i < s.params.capIn := by omega
  have hout := hinv.placement_lt_capOut hcap
  by_cases hi : s.i + 1 < s.inLen.toNat
  · cases hd : isData (s.unitAt s.i) with
    | false =>
      have hsel := State.selector_decCharBad.mpr ⟨hs, hi, hd⟩
      exact State.progresses_of_raise (State.enabledStep_of_selector hsel rfl)
        (execDecCharBad_next.mpr ⟨hsel, hcap, rfl⟩) hpos
    | true =>
      by_cases hwithin : 15 * s.i % 32 ≤ 17
      · have hsel := State.selector_decPlaceIn.mpr ⟨hs, hi, hd, hwithin⟩
        obtain ⟨m, hexec, -⟩ := execDecPlaceIn_spec hsel hcap (by omega)
        exact State.progresses_of_placed hi (State.enabledStep_of_selector hsel rfl) hexec
          (execDecPlaceIn_placed hexec)
      · have hsel := State.selector_decPlaceStraddle.mpr ⟨hs, hi, hd, Nat.lt_of_not_le hwithin⟩
        obtain ⟨m, hexec, -⟩ := execDecPlaceStraddle_spec hsel hcap hout
        exact State.progresses_of_placed hi (State.enabledStep_of_selector hsel rfl) hexec
          (execDecPlaceStraddle_placed hexec)
  · have hsel := State.selector_decTrim.mpr ⟨hs, by omega⟩
    obtain ⟨n, hn⟩ := State.trimmedLength_of_noop hnoop
    exact ⟨.decTrim, _, State.enabledStep_of_selector hsel rfl, execDecTrim_next.mpr ⟨hsel, n, hn, rfl⟩, hpos, nofun⟩

/-- R84, R126: while an operation runs, the engine gets on. -/
theorem State.progresses_of_busy {s : State} (hinv : s.Inv) (hb : s.busy = true)
    (hnoop : s.params.emptyTrim = .noop) : s.Progresses := by
  obtain hs | hs | hs := s.busy_iff.mp hb
  · exact State.progresses_of_encRun hinv hs
  · exact State.progresses_of_decTerm hinv hs
  · exact State.progresses_of_decRun hinv hs hnoop

/-! ## The end of an operation -/

/-- From `s` the operation ends in `t` after `a` engine turns and the other events that fall among them, busy until
then. -/
def State.EndsIn (s : State) (a : Nat) (t : State) : Prop :=
  ∃ k, k = a + othersIn (s.inputs.take k) ∧ (∀ m, m < k → ∃ u : State, core.run m s = .next u ∧ u.busy = true) ∧
    core.run k s = .next t ∧ t.busy = false

theorem State.endsIn_zero {s : State} (hb : s.busy = false) : s.EndsIn 0 s :=
  ⟨0, rfl, fun _ hm => absurd hm (Nat.not_lt_zero _), rfl, hb⟩

theorem State.ended_of_not_busy {s : State} (hb : s.busy = false) (hidle : s.state ≠ .idle) :
    s.state = .done ∨ s.state = .error := by
  obtain ⟨henc, hterm, hdec⟩ := s.not_busy_iff.mp hb
  cases hs : s.state <;> simp_all

/-- One more step in front, where `b` counts its event rightly. -/
theorem State.EndsIn.cons {s u t : State} {a b : Nat} (h : u.EndsIn a t) (hb : s.busy = true)
    (hstep : step s = .next u)
    (hcount : ∀ k, b + othersIn (s.inputs.take (k + 1)) = a + othersIn (u.inputs.take k) + 1) : s.EndsIn b t := by
  obtain ⟨k, hk, hbusy, hrun, hend⟩ := h
  refine ⟨k + 1, by rw [hcount, ← hk], fun m hm => ?_, run_succ_eq_next.mpr ⟨u, hstep, hrun⟩, hend⟩
  cases m with
  | zero => exact ⟨s, rfl, hb⟩
  | succ m =>
    obtain ⟨v, hv, hvb⟩ := hbusy m (Nat.lt_of_succ_lt_succ hm)
    exact ⟨v, run_succ_eq_next.mpr ⟨u, hstep, hv⟩, hvb⟩

theorem State.EndsIn.engineMoves {s u t : State} {a : Nat} (h : u.EndsIn a t) (hb : s.busy = true)
    (hmoves : s.EngineMoves) (hstep : step s = .next u) : s.EndsIn (a + 1) t := by
  obtain ⟨hinputs, -⟩ := stepTakesOneEventAndKeepsTheParameters s u hstep
  exact h.cons hb hstep fun k => by rw [hmoves.othersIn_take, hinputs]; omega

theorem State.EndsIn.other {s u t : State} {a : Nat} {e : Event} {rest : List Event} (h : u.EndsIn a t)
    (hb : s.busy = true) (hin : s.inputs = e :: rest) (he : e ≠ .engine) (hstep : step s = .next u) :
    s.EndsIn a t := by
  obtain ⟨hinputs, -⟩ := stepTakesOneEventAndKeepsTheParameters s u hstep
  exact h.cons hb hstep fun k => by rw [hinputs, hin, othersIn_take_cons_of_ne he, List.tail_cons]; omega

/-- `s` is in or after an operation, with only events of R57 to come and no model fault (R126). -/
structure State.Underway (s : State) : Prop where
  inv : s.Inv
  started : s.state ≠ .idle
  noop : s.params.emptyTrim = .noop
  events : ∀ e ∈ s.inputs, e = .reset ∨ e.EngineOrAccess

theorem mem_inputs_of_step {s u : State} (hstep : step s = .next u) {e : Event} (he : e ∈ u.inputs) :
    e ∈ s.inputs := by
  obtain ⟨hinputs, -⟩ := stepTakesOneEventAndKeepsTheParameters s u hstep
  exact List.mem_of_mem_tail (hinputs ▸ he)

theorem State.Underway.step {s u : State} (h : s.Underway) (hstep : step s = .next u) (hu : u.state ≠ .idle) :
    u.Underway where
  inv := stepKeepsTheInvariant s u h.inv hstep
  started := hu
  noop := (stepTakesOneEventAndKeepsTheParameters s u hstep).2 ▸ h.noop
  events e he := h.events e (mem_inputs_of_step hstep he)

/-- The operation of `s` ends within the turns it has left, and in DONE or ERROR where no reset is to come. -/
def State.Ends (s : State) : Prop :=
  ∃ a t, a ≤ s.turnsLeft ∧ s.EndsIn a t ∧ ((∀ e ∈ s.inputs, e ≠ .reset) → t.state = .done ∨ t.state = .error)

/-- An operation that ends from the next state ends, the step counted as `b` engine turns. -/
theorem State.Ends.of_step {s u : State} {b : Nat} (h : u.Ends) (hstep : Machine.step s = .next u)
    (hleft : u.turnsLeft + b ≤ s.turnsLeft) (hends : ∀ a t, u.EndsIn a t → s.EndsIn (a + b) t) : s.Ends := by
  obtain ⟨a, t, ha, hend, ht⟩ := h
  exact ⟨a + b, t, by omega, hends a t hend, fun hr => ht fun e he => hr e (mem_inputs_of_step hstep he)⟩

/-- A state that differs in the host's fields is as far in its operation. -/
theorem State.turnsLeft_of_sameButForHost {s t : State} (h : t.SameButForHost s) :
    t.state = s.state ∧ t.turnsLeft = s.turnsLeft := by
  obtain ⟨g, rfl⟩ := State.sameButForHost_iff.mp h
  exact ⟨rfl, rfl⟩

/-- Each engine turn leaves fewer turns, each other event fewer events, and a reset ends the operation at once. -/
theorem State.Underway.ends {s : State} (h : s.Underway) : s.Ends := by
  induction hn : s.turnsLeft + s.inputs.length using Nat.strong_induction_on generalizing s with
  | _ n ih =>
    cases hb : s.busy with
    | false => exact ⟨0, s, Nat.zero_le _, State.endsIn_zero hb, fun _ => State.ended_of_not_busy hb h.started⟩
    | true =>
      obtain hmoves | ⟨rest, hin⟩ | ⟨space, w, index, data, rest, hin⟩ := State.next_event_cases h.events
      · obtain ⟨i, u, henabled, hexec, hless, hu⟩ := State.progresses_of_busy h.inv.popped hb h.noop
        have hstep : Machine.step s = .next u := (step_of_enabled hmoves henabled).trans hexec
        have hless : u.turnsLeft < s.turnsLeft := hless
        have hlen : u.inputs.length ≤ s.inputs.length := by
          simp [(stepTakesOneEventAndKeepsTheParameters s u hstep).1]
        exact (ih _ (by omega) (h.step hstep hu) rfl).of_step (b := 1) hstep hless
          fun a t hend => hend.engineMoves hb hmoves hstep
      · have hend := (State.endsIn_zero (s := s.popped.afterReset) rfl).other hb hin nofun
          (step_of_resetNext ⟨rest, hin⟩)
        exact ⟨0, _, Nat.zero_le _, hend, fun hr => absurd rfl (hr .reset (by simp [hin]))⟩
      · obtain ⟨u, hstep, hsame⟩ := step_of_access_of_busy hb hin
        obtain ⟨hstate, hleft⟩ := State.turnsLeft_of_sameButForHost hsame
        have hlen : u.inputs.length < s.inputs.length := by
          simp [(stepTakesOneEventAndKeepsTheParameters s u hstep).1, hin]
        exact (ih _ (by omega) (h.step hstep (hstate ▸ h.started)) rfl).of_step (b := 0) hstep hleft.le
          fun a t hend => hend.other hb hin nofun hstep

/-- Bit 3 of STATUS is BUSY (R26, R83). -/
theorem State.waits_statusWord (s : State) : waits (s.regValue 1) = s.busy := by
  simp [waits, State.regValue, State.statusWord]

/-- Settles O50: a running operation is in no IDLE state, and the bound is the turns it has left. -/
theorem everyOperationEnds : Obligations.EveryOperationEnds := by
  intro s hinv hb hnoop hevents
  have hidle : s.state ≠ .idle := fun hs => by simp [State.busy, hs] at hb
  obtain ⟨a, t, ha, ⟨k, hk, hbusy, hrun, hend⟩, ht⟩ :=
    (State.Underway.mk hinv hidle hnoop hevents).ends
  exact ⟨k, a, t, hk, ha.trans (State.turnsLeft_le hinv), hbusy, hrun, hend,
    (State.waits_statusWord t).trans hend, ht⟩

end Sys2Proof.Machine
end

section
/-! SUPPORT. The statements of 30_encoding.md: the classes of code units and what each row reads (R72, R73), decoding
against encoding (R78, R79), the selection of the engine's steps (R84), and `load` (R83). -/

namespace Sys2Proof.Machine

open Sys2Proof

/-! ## Classes of code units -/

/-- The units of each class, as R72's table gives them over naturals; INVALID is the five gaps. -/
def ClassRange (u : Nat) : UnitClass → Prop
  | .dataA => 0x3400 ≤ u ∧ u ≤ 0x4DB5
  | .dataB => 0x4E00 ≤ u ∧ u ≤ 0x9FA5
  | .dataC => 0xE000 ≤ u ∧ u ≤ 0xF4A3
  | .term => TermUnit u
  | .invalid => u ≤ 0x2400 ∨ (0x2410 ≤ u ∧ u ≤ 0x33FF) ∨ (0x4DB6 ≤ u ∧ u ≤ 0x4DFF) ∨ (0x9FA6 ≤ u ∧ u ≤ 0xDFFF)
      ∨ 0xF4A4 ≤ u

theorem classRange_classOf (u : CodeUnit) : ClassRange u.toNat (classOf u) := by
  unfold classOf
  split_ifs <;> simp only [ClassRange, TermUnit] <;> omega

/-- No unit is in two ranges of R72. -/
theorem classRange_unique {u : Nat} {c d : UnitClass} (hc : ClassRange u c) (hd : ClassRange u d) : c = d := by
  cases c <;> cases d <;> simp only [ClassRange, TermUnit, reduceCtorEq] at hc hd ⊢ <;> omega

theorem classOf_eq_iff {u : CodeUnit} {c : UnitClass} : classOf u = c ↔ ClassRange u.toNat c :=
  ⟨fun h => h ▸ classRange_classOf u, classRange_unique (classRange_classOf u)⟩

/-- Settles O19: R72's ranges cover the 16-bit units and no two of them meet. -/
theorem unitClassesAreTheSpecRanges : Obligations.UnitClassesAreTheSpecRanges := fun _ =>
  ⟨classOf_eq_iff, classOf_eq_iff, classOf_eq_iff, classOf_eq_iff, classOf_eq_iff⟩

theorem tailCount_ne_zero_iff {n : TailCount} : n ≠ 0#4 ↔ 1 ≤ n.toNat :=
  BitVec.toNat_ne.trans Nat.one_le_iff_ne_zero.symm

/-- TOTERM of a count in [1, 15] is a terminator (R73, R92). -/
theorem classOf_toterm {n : TailCount} (hn : n ≠ 0#4) : classOf (toterm n) = .term := by
  have hpos := tailCount_ne_zero_iff.mp hn
  have hlt := n.isLt
  rw [classOf_eq_iff, toterm_toNat]
  exact ⟨by omega, by omega⟩

/-! ## The code-unit rows -/

theorem classOf_of_not_data_not_term {u : CodeUnit} (hd : ¬ DataUnit u.toNat) (ht : ¬ TermUnit u.toNat) :
    classOf u = .invalid := by
  rw [classOf_eq_iff]
  simp only [DataUnit, TermUnit] at hd ht
  simp only [ClassRange]
  omega

/-- Settles O20: each row's check is its range of R72, and the row's formula stays within 15 bits there. -/
theorem codeUnitRowsReadClassAndValue : Obligations.CodeUnitRowsReadClassAndValue := by
  intro s u n
  refine ⟨fun hn => if_neg (tailCount_ne_zero_iff.mpr hn), fun hlo hhi => ?_, fun hlo hhi => ?_, fun hlo hhi => ?_,
    fun hd ht => if_pos (classOf_of_not_data_not_term hd ht)⟩
  · have hclass : classOf u = .dataA := classOf_eq_iff.mpr ⟨hlo, hhi⟩
    refine ⟨_, if_pos hclass, ?_⟩
    simp only [BitVec.toNat_setWidth, BitVec.toNat_sub, BitVec.toNat_ofNat]
    omega
  · have hclass : classOf u = .dataB := classOf_eq_iff.mpr ⟨hlo, hhi⟩
    refine ⟨_, if_pos hclass, ?_⟩
    simp only [BitVec.toNat_setWidth, BitVec.toNat_add, BitVec.toNat_sub, BitVec.toNat_ofNat]
    omega
  · have hclass : classOf u = .dataC := classOf_eq_iff.mpr ⟨hlo, hhi⟩
    refine ⟨_, if_pos hclass, ?_⟩
    simp only [BitVec.toNat_setWidth, BitVec.toNat_add, BitVec.toNat_sub, BitVec.toNat_ofNat]
    omega

/-! ## Decoding and encoding -/

/-- A value of `n` bits survives the trip through a wider raw form. -/
theorem setWidth_setWidth_cancel {n m : Nat} (h : n ≤ m) (x : BitVec n) : (x.setWidth m).setWidth n = x := by
  rw [BitVec.setWidth_setWidth_of_le _ h, BitVec.setWidth_eq]

theorem toterm_setWidth (n : TailCount) : (toterm n).setWidth 4 = n := by
  apply BitVec.eq_of_toNat_eq
  have hlt := n.isLt
  rw [BitVec.toNat_setWidth, toterm_toNat]
  omega

theorem decodeMapper_tochar (p : Group) : decodeMapper .tochar (p.setWidth 16) = .ok (.tochar p) := by
  have hp := p.isLt
  have harg : (p.setWidth 16).toNat ≤ 32767 := by
    rw [BitVec.toNat_setWidth_of_le (by decide)]
    omega
  rw [decodeMapper, if_pos harg, setWidth_setWidth_cancel (by decide)]

theorem decodeMapper_toterm {n : TailCount} (hn : n ≠ 0#4) :
    decodeMapper .toterm (n.setWidth 16) = .ok (.toterm n) := by
  have hpos := tailCount_ne_zero_iff.mp hn
  have hlt := n.isLt
  have harg : 1 ≤ (n.setWidth 16).toNat ∧ (n.setWidth 16).toNat ≤ 15 := by
    rw [BitVec.toNat_setWidth_of_le (by decide)]
    omega
  rw [decodeMapper, if_pos harg, setWidth_setWidth_cancel (by decide)]

theorem decodeUnit_toterm {n : TailCount} (hn : n ≠ 0#4) : decodeUnit (toterm n) = .unitTerm n := by
  rw [decodeUnit, classOf_toterm hn, toterm_setWidth]

/-- The encoder's raw form of each row is read back as that row (R78, R79, R84, R72). -/
theorem decode_encode {i : Instr} (h : i.wellFormed = true) : decode (encode i) = .ok i := by
  cases i with
  | encode | decode | encDataIn | encDataStraddle | encTerm | decTerm | decCharBad | decPlaceIn | decPlaceStraddle
  | decTrim | fromchar | fromterm | rdReg | wrIn | rdIn | rdOut | wrOut => rfl
  | refuse v =>
    obtain ⟨hencode, hdecode⟩ : v ≠ 0x00000001#32 ∧ v ≠ 0x00000002#32 := by simpa [Instr.wellFormed] using h
    exact congrArg Except.ok (decodeCmd_of_no_command hencode hdecode)
  | tochar p => exact decodeMapper_tochar p
  | toterm n => exact decodeMapper_toterm (of_decide_eq_true h)
  | unitTerm n => exact congrArg Except.ok (decodeUnit_toterm (of_decide_eq_true h))
  | unitDataA u | unitDataB u | unitDataC u | unitInvalid u =>
    have hclass := of_decide_eq_true h
    simp only [encode, decode, decodeUnit, hclass]
  | wrReg index data => exact congrArg Except.ok (if_neg (of_decide_eq_true h))
  | accReserved w index data =>
    cases w with
    | true => rfl
    | false =>
      obtain rfl : data = 0#32 := by simpa [Instr.wellFormed] using h
      rfl

/-- Settles O1, row by row. -/
theorem decodeInvertsEncode : Obligations.DecodeInvertsEncode := fun _ => decode_encode

theorem decodeCmd_wellFormed (v : Word) : (decodeCmd v).wellFormed = true := by
  unfold decodeCmd
  split_ifs with hencode hdecode
  · rfl
  · rfl
  · simp [Instr.wellFormed, hencode, hdecode]

theorem decodeAccess_wellFormed (space : BitVec 2) (w : BitVec 1) (index : Nat) (data : Word) :
    (decodeAccess space w index data).wellFormed = true := by
  unfold decodeAccess
  split_ifs with _ _ hindex
  · exact decodeCmd_wellFormed data
  · exact decide_eq_true hindex
  all_goals rfl

theorem decodeSelector_wellFormed {b : BitVec 8} {i : Instr} (h : decodeSelector b = .ok i) :
    i.wellFormed = true := by
  obtain ⟨rfl, -⟩ | ⟨rfl, -⟩ | ⟨rfl, -⟩ | ⟨rfl, -⟩ | ⟨rfl, -⟩ | ⟨rfl, -⟩ | ⟨rfl, -⟩ | ⟨rfl, -⟩ :=
    decodeSelector_eq_ok.mp h <;> rfl

theorem decodeMapper_wellFormed {f : MapFn} {arg : CodeUnit} {i : Instr} (h : decodeMapper f arg = .ok i) :
    i.wellFormed = true := by
  cases f <;> simp only [decodeMapper] at h
  case tochar => split_ifs at h; cases h; rfl
  case fromchar => cases h; rfl
  case toterm =>
    split_ifs at h with hrange
    cases h
    refine decide_eq_true (tailCount_ne_zero_iff.mpr ?_)
    rw [BitVec.toNat_setWidth]
    omega
  case fromterm => cases h; rfl

theorem decodeUnit_wellFormed (u : CodeUnit) : (decodeUnit u).wellFormed = true := by
  cases hclass : classOf u with
  | dataA | dataB | dataC | invalid =>
    rw [decodeUnit, hclass]
    exact decide_eq_true hclass
  | term =>
    obtain ⟨hlo, hhi⟩ := classOf_eq_iff.mp hclass
    rw [decodeUnit, hclass]
    refine decide_eq_true (tailCount_ne_zero_iff.mpr ?_)
    rw [BitVec.toNat_setWidth]
    omega

/-- Settles O2, by the raw form's kind. -/
theorem decodedInstructionIsWellFormed : Obligations.DecodedInstructionIsWellFormed := by
  intro r i h
  cases r with
  | access space w index data => exact Except.ok.inj h ▸ decodeAccess_wellFormed space w index data
  | selector sel => exact decodeSelector_wellFormed h
  | mapper f arg => exact decodeMapper_wellFormed h
  | unit u => exact Except.ok.inj h ▸ decodeUnit_wellFormed u

/-- Settles O3: each word is closed, so the decoder computes its row. -/
theorem specWordsDecodeToTheirRows : Obligations.SpecWordsDecodeToTheirRows :=
  ⟨rfl, rfl, rfl, rfl, rfl, rfl, rfl, rfl, rfl, rfl, rfl, rfl, rfl, rfl⟩

/-! ## The selection of the engine's steps -/

/-- A selector selects the engine step whose encoding it is, and no other (R84, log 5). -/
theorem decodeSelector_eq_ok_iff_encode {b : BitVec 8} {i : Instr} :
    decodeSelector b = .ok i ↔ encode i = .selector b := by
  constructor
  · intro h
    obtain ⟨rfl, rfl⟩ | ⟨rfl, rfl⟩ | ⟨rfl, rfl⟩ | ⟨rfl, rfl⟩ | ⟨rfl, rfl⟩ | ⟨rfl, rfl⟩ | ⟨rfl, rfl⟩ | ⟨rfl, rfl⟩ :=
      decodeSelector_eq_ok.mp h <;> rfl
  · intro h
    cases i <;> cases h <;> rfl

theorem State.enabledStep_iff_selector {s : State} {i : Instr} {sel : BitVec 8} (h : encode i = .selector sel) :
    s.enabledStep = some i ↔ s.selector = sel := by
  rw [State.enabledStep_eq_some, decodeSelector_eq_ok_iff_encode, h, Raw.selector.injEq, eq_comm]

theorem State.isData_unitAt_iff (s : State) (k : Nat) : isData (s.unitAt k) = true ↔ DataUnit (s.unitNat k) := by
  rw [isData_iff, State.unitNat_eq]

theorem State.isData_unitAt_eq_false_iff (s : State) (k : Nat) :
    isData (s.unitAt k) = false ↔ ¬ DataUnit (s.unitNat k) := by
  rw [← State.isData_unitAt_iff, Bool.not_eq_true]

/-- In ENC_RUN one of the encoder's three steps is enabled (R84). -/
theorem State.exists_enabledStep_of_encRun {s : State} (hs : s.state = .encRun) : ∃ i, s.enabledStep = some i := by
  by_cases hi : s.i < s.nb
  · by_cases ho : s.i % 32 ≤ 17
    · exact ⟨_, State.enabledStep_of_selector (State.selector_encDataIn.mpr ⟨hs, hi, ho⟩) rfl⟩
    · exact ⟨_, State.enabledStep_of_selector (State.selector_encDataStraddle.mpr ⟨hs, hi, Nat.lt_of_not_le ho⟩) rfl⟩
  · exact ⟨_, State.enabledStep_of_selector (State.selector_encTerm.mpr ⟨hs, Nat.le_of_not_lt hi⟩) rfl⟩

/-- In DEC_RUN, where `I <= IN_LEN - 1`, one of the decoder's four steps over the units is enabled (R84). -/
theorem State.exists_enabledStep_of_decRun {s : State} (hs : s.state = .decRun) (hle : s.i + 1 ≤ s.inLen.toNat) :
    ∃ i, s.enabledStep = some i := by
  obtain hlast | hi := hle.eq_or_lt
  · exact ⟨_, State.enabledStep_of_selector (State.selector_decTrim.mpr ⟨hs, hlast⟩) rfl⟩
  · cases hd : isData (s.unitAt s.i) with
    | false => exact ⟨_, State.enabledStep_of_selector (State.selector_decCharBad.mpr ⟨hs, hi, hd⟩) rfl⟩
    | true =>
      by_cases ho : 15 * s.i % 32 ≤ 17
      · exact ⟨_, State.enabledStep_of_selector (State.selector_decPlaceIn.mpr ⟨hs, hi, hd, ho⟩) rfl⟩
      · exact ⟨_, State.enabledStep_of_selector
          (State.selector_decPlaceStraddle.mpr ⟨hs, hi, hd, Nat.lt_of_not_le ho⟩) rfl⟩

/-- While an operation runs, an engine step is enabled (R84). -/
theorem State.Inv.exists_enabledStep {s : State} (h : s.Inv) (hb : s.busy = true) :
    ∃ i, s.enabledStep = some i := by
  obtain hs | hs | hs := s.busy_iff.mp hb
  · exact State.exists_enabledStep_of_encRun hs
  · exact ⟨_, State.enabledStep_of_selector (State.selector_decTerm.mpr hs) rfl⟩
  · obtain ⟨-, hle, -⟩ := h.decRegs hs
    exact State.exists_enabledStep_of_decRun hs hle

theorem State.busy_of_idle_done_error {s : State} (hs : s.state = .idle ∨ s.state = .done ∨ s.state = .error) :
    s.busy = false := by
  obtain hs | hs | hs := hs <;> rw [State.busy, hs]

/-- Settles O7: each row of R84's table is the condition on the selector of its step. -/
theorem engineStepSelectionTable : Obligations.EngineStepSelectionTable := by
  intro s
  rw [← State.isData_unitAt_eq_false_iff, ← State.isData_unitAt_iff]
  refine ⟨(State.enabledStep_iff_selector rfl).trans State.selector_encDataIn,
    (State.enabledStep_iff_selector rfl).trans State.selector_encDataStraddle,
    (State.enabledStep_iff_selector rfl).trans State.selector_encTerm,
    (State.enabledStep_iff_selector rfl).trans State.selector_decTerm,
    (State.enabledStep_iff_selector rfl).trans State.selector_decCharBad,
    (State.enabledStep_iff_selector rfl).trans State.selector_decPlaceIn,
    (State.enabledStep_iff_selector rfl).trans State.selector_decPlaceStraddle,
    (State.enabledStep_iff_selector rfl).trans State.selector_decTrim,
    fun hs => State.enabledStep_of_not_busy (State.busy_of_idle_done_error hs), fun hinv hb => ?_,
    fun hinv hs => ?_⟩
  · obtain ⟨i, hi⟩ := hinv.exists_enabledStep hb
    exact ⟨i, hi, State.enabledStep_cases hi⟩
  · obtain ⟨-, hle, -⟩ := hinv.decRegs hs
    omega

theorem whenSelected_of_ne {sel : BitVec 8} {s : State} (b : Except Fault State) (h : s.selector ≠ sel) :
    whenSelected sel s b = .refused .stepNotEnabled := if_neg h

/-- Settles O8: the eight meanings test R84's selection before anything else. -/
theorem engineStepsRunOnlyWhereEnabled : Obligations.EngineStepsRunOnlyWhereEnabled := by
  intro i s hi hne
  obtain rfl | rfl | rfl | rfl | rfl | rfl | rfl | rfl := hi <;>
    exact whenSelected_of_ne _ (mt (State.enabledStep_iff_selector rfl).mpr hne)

/-! ## `load` -/

/-- The IN_BUF entries after a store, in a record that may differ in any field but `resets` (R147). -/
theorem State.inEntry_put {s t : State} {k : Nat} {v : Word} (hb : t.inBuf = s.inBuf.put k v)
    (hr : t.resets = s.resets) (j : Nat) : t.inEntry j = if j = k then v else s.inEntry j := by
  simp only [State.inEntry_def, hb, hr, Memory.find_put]
  split <;> rfl

theorem step_of_wrIn {s : State} {k : Nat} {v : Word} {rest : List Event} (hb : s.busy = false)
    (hk : k < s.params.capIn) (hin : s.inputs = (Line.wrIn k v).event :: rest) :
    step s = .next { s with inBuf := s.inBuf.put k v, inputs := rest } := by
  rw [step_of_issue hin rfl, State.popped, hin]
  exact congrArg Host.Outcome.next (if_pos ⟨hk, hb⟩)

theorem step_of_wrInLen {s : State} {v : Word} {rest : List Event} (hb : s.busy = false)
    (hin : s.inputs = (Line.wrReg .inLen v).event :: rest) :
    step s = .next { s with inLen := v, inputs := rest } := by
  rw [step_of_issue hin rfl, State.popped, hin]
  exact congrArg Host.Outcome.next (if_neg (Bool.eq_false_iff.mp hb))

/-- The IN_BUF writes of `load` from index `k` on put the values there, and leave the entries below `k` and past the
last value (R83, R147). -/
theorem run_loadFrom {vs : List Word} {rest : List Event} {s : State} {k : Nat} (hb : s.busy = false)
    (hcap : k + vs.length ≤ s.params.capIn) (hin : s.inputs = (loadFrom k vs).map Line.event ++ rest) :
    ∃ t : State, core.run vs.length s = .next t ∧ t = { s with inBuf := t.inBuf, inputs := rest } ∧
      (∀ j < k, t.inEntry j = s.inEntry j) ∧ ∀ j, t.inEntry (k + j) = (vs[j]?).getD (s.inEntry (k + j)) := by
  induction vs generalizing s k with
  | nil =>
    obtain rfl : s.inputs = rest := hin
    exact ⟨s, rfl, rfl, fun _ _ => rfl, fun _ => rfl⟩
  | cons v vs ih =>
    have hcap' : k + 1 + vs.length ≤ s.params.capIn := by
      rw [List.length_cons] at hcap
      omega
    let u : State := { s with inBuf := s.inBuf.put k v, inputs := (loadFrom (k + 1) vs).map Line.event ++ rest }
    have hstep : step s = .next u := step_of_wrIn hb (by omega) hin
    have hentry : ∀ j, u.inEntry j = if j = k then v else s.inEntry j := State.inEntry_put rfl rfl
    obtain ⟨t, hrun, hframe, hbelow, hfrom⟩ := ih (s := u) hb hcap' rfl
    refine ⟨t, run_succ_eq_next.mpr ⟨u, hstep, hrun⟩, hframe, fun j hj => ?_, fun j => ?_⟩
    · rw [hbelow j (by omega), hentry, if_neg hj.ne]
    · cases j with
      | zero => exact (hbelow k (Nat.lt_succ_self k)).trans ((hentry k).trans (if_pos rfl))
      | succ j =>
        rw [show k + (j + 1) = k + 1 + j by omega, hfrom, hentry, if_neg (by omega), List.getElem?_cons_succ]

/-- Settles O34: the IN_BUF writes from index 0 on, and then the write of IN_LEN. -/
theorem loadPlacesTheInput : Obligations.LoadPlacesTheInput := by
  intro s vs rest hb hcap hin
  rw [load, List.map_append, List.append_assoc] at hin
  obtain ⟨t, hrun, hframe, -, hentry⟩ := run_loadFrom hb (by omega) hin
  have hbt : t.busy = false := by rw [hframe]; exact hb
  have hint : t.inputs = (Line.wrReg .inLen (BitVec.ofNat 32 vs.length)).event :: rest := by rw [hframe]; rfl
  refine ⟨_, (run_snoc hrun).trans (step_of_wrInLen hbt hint), ?_, fun j => ?_⟩
  · rw [hframe]
  · have h := hentry j
    rw [Nat.zero_add] at h
    exact h

end Sys2Proof.Machine
end

section
/-! SUPPORT. The statements of 40_alphabet_mapper.md: the inverse laws of the mapper (R94), and what each of its four
functions leaves on the output line (R90 to R93). -/

namespace Sys2Proof.Machine

open Sys2Proof

/-! ## The inverse laws -/

/-- Each row of TOCHAR's table lands in its range of R72. -/
theorem dataUnit_tochar (p : Group) : DataUnit (tochar p).toNat := by
  have hlt := p.isLt
  rw [tochar_toNat]
  split_ifs
  · exact .inl (by omega)
  · exact .inr (.inl (by omega))
  · exact .inr (.inr (by omega))

/-- The ranges of R72 stand in the order of TOCHAR's rows, so the unit tells which row gave it. -/
theorem groupNat_tochar (p : Group) : groupNat (tochar p).toNat = p.toNat := by
  have hlt := p.isLt
  rw [tochar_toNat, groupNat]
  split_ifs <;> omega

theorem fromchar_tochar (p : Group) : fromchar (tochar p) = some p := by
  obtain ⟨q, hq, hnat⟩ := fromchar_of_data (dataUnit_tochar p)
  rw [hq, BitVec.eq_of_toNat_eq (hnat.trans (groupNat_tochar p))]

theorem tochar_injective : Function.Injective tochar := fun p q h =>
  Option.some.inj ((fromchar_tochar p).symm.trans ((congrArg fromchar h).trans (fromchar_tochar q)))

theorem tochar_of_toNat_eq_groupNat {c : CodeUnit} {p : Group} (hc : DataUnit c.toNat)
    (hp : p.toNat = groupNat c.toNat) : tochar p = c := by
  apply BitVec.eq_of_toNat_eq
  rw [groupNat] at hp
  rw [tochar_toNat]
  obtain hA | hB | hC := hc
  · rw [if_pos hA.2] at hp
    rw [if_pos (by omega)]
    omega
  · rw [if_neg (by omega), if_pos hB.2] at hp
    rw [if_neg (by omega), if_pos (by omega)]
    omega
  · rw [if_neg (by omega), if_neg (by omega)] at hp
    rw [if_neg (by omega), if_neg (by omega)]
    omega

theorem exists_fromchar_and_tochar {c : CodeUnit} (hc : DataUnit c.toNat) :
    ∃ p, fromchar c = some p ∧ tochar p = c := by
  obtain ⟨p, hp, hnat⟩ := fromchar_of_data hc
  exact ⟨p, hp, tochar_of_toNat_eq_groupNat hc hnat⟩

theorem exists_tochar_eq_iff (c : CodeUnit) : (∃ p, tochar p = c) ↔ DataUnit c.toNat := by
  constructor
  · rintro ⟨p, rfl⟩
    exact dataUnit_tochar p
  · intro hc
    obtain ⟨p, -, hp⟩ := exists_fromchar_and_tochar hc
    exact ⟨p, hp⟩

/-- No data unit is a terminator: TERM lies below DATA_A (R72). -/
theorem not_termUnit_of_dataUnit {u : Nat} (h : DataUnit u) : ¬ TermUnit u := by
  unfold DataUnit at h
  unfold TermUnit
  omega

theorem fromterm_toterm {n : TailCount} (hn : 1 ≤ n.toNat) : fromterm (toterm n) = some n := by
  have hterm : TermUnit (toterm n).toNat := classOf_eq_iff.mp (classOf_toterm (tailCount_ne_zero_iff.mpr hn))
  obtain ⟨m, hm, hnat⟩ := fromterm_of_term hterm
  rw [toterm_toNat, Nat.add_sub_cancel_left] at hnat
  rw [hm, BitVec.eq_of_toNat_eq hnat]

/-- Settles O18: FROMCHAR undoes each row of TOCHAR's table, and the rows fill R72's data ranges. -/
theorem mapperInverseLaws : Obligations.MapperInverseLaws :=
  ⟨fromchar_tochar, fun _ => exists_fromchar_and_tochar, fun _ => fromterm_toterm, fun _ _ h => tochar_injective h,
    exists_tochar_eq_iff, fun p => not_termUnit_of_dataUnit (dataUnit_tochar p)⟩

/-! ## The output line -/

theorem exec_fromchar_of_some {c : CodeUnit} {p : Group} (h : fromchar c = some p) (s : State) :
    exec (.fromchar c) s = .next { s with mapOut := some (.group p) } := by
  rw [exec, execFromchar, h]

theorem exec_fromchar_of_none {c : CodeUnit} (h : fromchar c = none) (s : State) :
    exec (.fromchar c) s = .next { s with mapOut := some (.fail c) } := by
  rw [exec, execFromchar, h]

theorem exec_toterm_of_ne_zero {n : TailCount} (h : n ≠ 0#4) (s : State) :
    exec (.toterm n) s = .next { s with mapOut := some (.unit (toterm n)) } := if_neg h

theorem exec_fromterm_of_some {t : CodeUnit} {n : TailCount} (h : fromterm t = some n) (s : State) :
    exec (.fromterm t) s = .next { s with mapOut := some (.count n) } := by
  rw [exec, execFromterm, h]

theorem exec_fromterm_of_none {t : CodeUnit} (h : fromterm t = none) (s : State) :
    exec (.fromterm t) s = .next { s with mapOut := some (.fail t) } := by
  rw [exec, execFromterm, h]

/-- Settles O14: every group has a unit, so TOCHAR has one case. -/
theorem tocharGivesTheDataUnit : Obligations.TocharGivesTheDataUnit := fun p _ => ⟨tochar p, rfl, tochar_toNat p⟩

/-- Settles O15, by whether FROMCHAR finds the unit in a data range. -/
theorem fromcharGivesTheGroupOrFails : Obligations.FromcharGivesTheGroupOrFails := by
  intro c s
  refine ⟨fun hc => ?_, fun hc => exec_fromchar_of_none (fromchar_of_not_data hc) s⟩
  obtain ⟨p, hp, hnat⟩ := fromchar_of_data hc
  exact ⟨p, exec_fromchar_of_some hp s, hnat⟩

/-- Settles O16: a count in [1, 15] is not the one TOTERM refuses. -/
theorem totermGivesTheTerminator : Obligations.TotermGivesTheTerminator := fun n s hn =>
  ⟨toterm n, exec_toterm_of_ne_zero (tailCount_ne_zero_iff.mpr hn) s, toterm_toNat n⟩

/-- Settles O17, by whether FROMTERM finds the unit in TERM. -/
theorem fromtermGivesTheCountOrFails : Obligations.FromtermGivesTheCountOrFails := by
  intro t s
  refine ⟨fun ht => ?_, fun ht => exec_fromterm_of_none (fromterm_of_not_term ht) s⟩
  obtain ⟨n, hn, hnat⟩ := fromterm_of_term ht
  exact ⟨n, exec_fromterm_of_some hn s, hnat⟩

end Sys2Proof.Machine
end

section
/-! SUPPORT. The statements of 41_encoder.md: what each of the encoder's steps writes (R103 to R105), that no turn of
the engine leaves an ENCODE with an error (R109), and a whole ENCODE (R106, R107, R188). -/

namespace Sys2Proof.Machine

open Sys2Proof

/-! ## The groups over naturals -/

/-- The shift and the mask of R103 as a quotient and a remainder. -/
theorem groupWithin_toNat (w : Word) (o : Nat) :
    (groupWithin w o).toNat = w.toNat / 2 ^ (17 - o) % 2 ^ 15 := by
  simp [groupWithin, Nat.shiftRight_eq_div_pow]

theorem groupHigh_toNat (w : Word) (o : Nat) : (groupHigh w o).toNat = w.toNat * 2 ^ (o - 17) % 2 ^ 15 := by
  simp [groupHigh, Nat.shiftLeft_eq]

theorem groupLow_toNat (w : Word) (o : Nat) : (groupLow w o).toNat = w.toNat / 2 ^ (49 - o) % 2 ^ 15 := by
  simp [groupLow, Nat.shiftRight_eq_div_pow]

/-- `lo` has `o - 17` bits, so the change of width drops none (R104). -/
theorem word_div_lt {o : Nat} (ho : 17 < o) (ho' : o < 32) (w : Word) : w.toNat / 2 ^ (49 - o) < 2 ^ (o - 17) := by
  rw [Nat.div_lt_iff_lt_mul (Nat.two_pow_pos _), ← pow_add, show o - 17 + (49 - o) = 32 by omega]
  exact w.isLt

/-- `hi` is a multiple of `2 ^ (o - 17)` and `lo` is below it, so they share no bit and the OR is the sum (R104). -/
theorem groupHigh_or_groupLow_toNat {o : Nat} (ho : 17 < o) (ho' : o < 32) (w next : Word) :
    (groupHigh w o ||| groupLow next o).toNat
      = w.toNat * 2 ^ (o - 17) % 2 ^ 15 + next.toNat / 2 ^ (49 - o) := by
  have hlo := word_div_lt ho ho' next
  have hle : 2 ^ (o - 17) ≤ 2 ^ 15 := Nat.pow_le_pow_right (by decide) (by omega)
  have hhi : w.toNat * 2 ^ (o - 17) % 2 ^ 15 = 2 ^ (o - 17) * (w.toNat % 2 ^ (32 - o)) := by
    rw [show 15 = o - 17 + (32 - o) by omega, pow_add, mul_comm w.toNat, Nat.mul_mod_mul_left]
  rw [BitVec.toNat_or, groupHigh_toNat, groupLow_toNat, Nat.mod_eq_of_lt (hlo.trans_le hle), hhi,
    Nat.two_pow_add_eq_or_of_lt hlo]

theorem State.wordAfter_toNat (s : State) :
    s.wordAfter.toNat = if s.i / 32 + 1 < s.inLen.toNat then (s.inEntry (s.i / 32 + 1)).toNat else 0 := by
  rw [State.wordAfter, apply_ite BitVec.toNat]
  rfl

/-- A count that 32 bits hold is OUT_LEN's value (R31). -/
theorem lenWord_toNat {n : Nat} (h : n < 2 ^ 32) : (lenWord n).toNat = n := by
  rw [lenWord, if_pos h, BitVec.toNat_ofNat, Nat.mod_eq_of_lt h]

/-! ## What a step leaves in OUT_BUF -/

theorem State.outEntry_afterUnit (s : State) (p : Group) (k : Nat) :
    (s.afterUnit p).outEntry k = if k = s.oc then (tochar p).setWidth 32 else s.outEntry k :=
  State.outEntry_put (t := s.afterUnit p) rfl rfl k

theorem State.outEntry_afterEncTerm (s : State) (k : Nat) :
    s.afterEncTerm.outEntry k
      = if k = s.oc then (toterm (BitVec.ofNat 4 (15 - (s.i - s.nb)))).setWidth 32 else s.outEntry k :=
  State.outEntry_put (t := s.afterEncTerm) rfl rfl k

theorem State.outEntry_afterEncTerm_of_ne {s : State} {k : Nat} (h : k ≠ s.oc) :
    s.afterEncTerm.outEntry k = s.outEntry k :=
  (s.outEntry_afterEncTerm k).trans (if_neg h)

/-- The terminator's count is at most 15, so the four bits of TOTERM's operand hold it (R92, R105). -/
theorem State.outEntry_afterEncTerm_toNat (s : State) :
    (s.afterEncTerm.outEntry s.oc).toNat = 0x2400 + (15 - (s.i - s.nb)) := by
  have hcount : 15 - (s.i - s.nb) < 2 ^ 4 := by omega
  rw [State.outEntry_afterEncTerm, if_pos rfl, BitVec.toNat_setWidth_of_le (by decide), toterm_toNat,
    BitVec.toNat_ofNat, Nat.mod_eq_of_lt hcount]

/-! ## The three steps -/

/-- Settles O35: the step is selected, and the group it reads is R103's. -/
theorem encDataInWritesTheGroup : Obligations.EncDataInWritesTheGroup := by
  intro s hs hi ho hcap hout
  have hsel := State.selector_encDataIn.mpr ⟨hs, hi, ho⟩
  exact ⟨s.afterUnit s.groupIn, s.groupIn, execEncDataIn_next.mpr ⟨hsel, hcap, hout, rfl⟩, rfl,
    groupWithin_toNat _ _, s.outEntry_afterUnit _⟩

/-- Settles O36: the two parts share no bit, so the group is their sum. -/
theorem encDataStraddleWritesTheGroup : Obligations.EncDataStraddleWritesTheGroup := by
  intro s hs hi ho hcap hfits hout
  have hsel := State.selector_encDataStraddle.mpr ⟨hs, hi, ho⟩
  refine ⟨s.afterUnit s.groupAcross, s.groupAcross,
    execEncDataStraddle_next.mpr ⟨hsel, hcap, fun hnext => hnext.trans_le hfits, hout, rfl⟩, rfl, ?_,
    s.outEntry_afterUnit _⟩
  rw [← State.wordAfter_toNat]
  exact groupHigh_or_groupLow_toNat ho (Nat.mod_lt _ (by decide)) _ _

/-- Settles O37. -/
theorem encTermAppendsTheTerminator : Obligations.EncTermAppendsTheTerminator := by
  intro s hs hi _ hout
  have hsel := State.selector_encTerm.mpr ⟨hs, hi⟩
  exact ⟨s.afterEncTerm, execEncTerm_next.mpr ⟨hsel, hout, rfl⟩, rfl, lenWord_toNat, s.outEntry_afterEncTerm_toNat,
    fun _ => State.outEntry_afterEncTerm_of_ne⟩

/-! ## The engine's turn in an ENCODE -/

/-- While the cursor is within the input, the engine's turn writes a group's unit (R84, R106). -/
theorem State.Inv.step_encData {s : State} (h : s.Inv) (hs : s.state = .encRun) (hmoves : s.EngineMoves)
    (hi : s.i < s.nb) : ∃ p, step s = .next (s.popped.afterUnit p) := by
  have hout := h.oc_lt_capOut hs
  obtain ⟨hnb, -, -⟩ := h.encRegs hs
  have hfits := h.inLenFits (s.busy_iff.mpr (.inl hs))
  have hcap : s.i / 32 < s.params.capIn := by omega
  by_cases ho : s.i % 32 ≤ 17
  · have hsel := State.selector_encDataIn.mpr ⟨hs, hi, ho⟩
    exact ⟨_, (step_of_enabled hmoves (State.enabledStep_of_selector hsel rfl)).trans
      (execEncDataIn_next (s := s.popped).mpr ⟨hsel, hcap, hout, rfl⟩)⟩
  · have hsel := State.selector_encDataStraddle.mpr ⟨hs, hi, Nat.lt_of_not_le ho⟩
    exact ⟨_, (step_of_enabled hmoves (State.enabledStep_of_selector hsel rfl)).trans
      (execEncDataStraddle_next (s := s.popped).mpr ⟨hsel, hcap, fun hnext => hnext.trans_le hfits, hout, rfl⟩)⟩

/-- Once the cursor is past the input, it appends the terminator (R84, R105). -/
theorem State.Inv.step_encTerm {s : State} (h : s.Inv) (hs : s.state = .encRun) (hmoves : s.EngineMoves)
    (hi : s.nb ≤ s.i) : step s = .next s.popped.afterEncTerm := by
  have hsel := State.selector_encTerm.mpr ⟨hs, hi⟩
  exact (step_of_enabled hmoves (State.enabledStep_of_selector hsel rfl)).trans
    (execEncTerm_next (s := s.popped).mpr ⟨hsel, h.oc_lt_capOut hs, rfl⟩)

/-- Settles O39: a turn writes a unit and stays in ENC_RUN, or appends the terminator and completes. -/
theorem encodeHasNoErrorPath : Obligations.EncodeHasNoErrorPath := by
  intro s h hs hmoves
  by_cases hi : s.i < s.nb
  · obtain ⟨p, hstep⟩ := h.step_encData hs hmoves hi
    exact ⟨_, hstep, .inl hs, rfl⟩
  · exact ⟨_, h.step_encTerm hs hmoves (Nat.le_of_not_lt hi), .inr rfl, rfl⟩

/-! ## A whole ENCODE -/

/-- `u` is `s`, the start of an ENCODE, after `m` data steps: the first `m` groups' units are written, and nothing but
OUT_BUF and the cursor has moved (R100, R106). -/
structure State.EncodedTo (s : State) (m : Nat) (u : State) : Prop where
  inv : u.Inv
  result : u.ResultInv
  frame : u = { s with outBuf := u.outBuf, oc := m, i := 15 * m }

theorem State.EncodedTo.state_eq {s u : State} {m : Nat} (h : s.EncodedTo m u) : u.state = s.state := by
  rw [h.frame]

theorem State.EncodedTo.inputs_eq {s u : State} {m : Nat} (h : s.EncodedTo m u) : u.inputs = s.inputs := by
  rw [h.frame]

/-- One more data step, where a group is left. -/
theorem State.EncodedTo.step {s u : State} {m : Nat} (h : s.EncodedTo m u) (hs : s.state = .encRun)
    (hin : s.inputs = []) (hm : 15 * m < s.nb) : ∃ v, Machine.step u = .next v ∧ s.EncodedTo (m + 1) v := by
  have hinu : u.inputs = [] := h.inputs_eq.trans hin
  have hi : u.i < u.nb := by rw [h.frame]; exact hm
  obtain ⟨p, hstep⟩ := h.inv.step_encData (h.state_eq.trans hs) (.inl hinu) hi
  rw [State.popped_of_nil hinu] at hstep
  refine ⟨u.afterUnit p, hstep, stepKeepsTheInvariant u _ h.inv hstep,
    stepKeepsTheResultRight u _ h.inv h.result hstep, ?_⟩
  rw [State.afterUnit, h.frame]
  rfl

/-- From the start of an ENCODE of `n` words, the first `ceil(32*n/15)` engine steps are data steps (R106). -/
theorem State.run_encodedTo {s : State} (hinv : s.Inv) (hs : s.state = .encRun) (hoc : s.oc = 0)
    (hin : s.inputs = []) {m : Nat} (hm : m ≤ ceilDiv (32 * s.inLen.toNat) 15) :
    ∃ u : State, core.run m s = .next u ∧ s.EncodedTo m u := by
  obtain ⟨hnb, hi, -⟩ := hinv.encRegs hs
  induction m with
  | zero =>
    have hresult : s.ResultInv :=
      ⟨fun _ g hg => by omega, fun hdec => absurd (hs.symm.trans hdec) nofun⟩
    have hi0 : s.i = 15 * 0 := by rw [hi, hoc]
    exact ⟨s, rfl, hinv, hresult, by rw [← hi0, ← hoc]⟩
  | succ m ih =>
    obtain ⟨u, hrun, hu⟩ := ih (by omega)
    have hleft : 15 * m < s.nb := by
      unfold ceilDiv at hm
      omega
    obtain ⟨v, hstep, hv⟩ := hu.step hs hin hleft
    exact ⟨v, (run_snoc hrun).trans hstep, hv⟩

/-- ENC_TERM leaves the entries below OC, and the input they are the groups of. -/
theorem State.HoldsGroup.afterEncTerm {s : State} {g : Nat} (h : s.HoldsGroup g) (hg : g < s.oc) :
    s.afterEncTerm.HoldsGroup g := by
  obtain ⟨p, hp, hbits⟩ := h
  exact ⟨p, (State.outEntry_afterEncTerm_of_ne hg.ne).trans hp, hbits⟩

/-- R107's closed form: what the last group overshoots the input by leaves `2n mod 15` bits of it, or all 15. -/
theorem terminatorCount_closed (n : Nat) :
    15 - (15 * ceilDiv (32 * n) 15 - 32 * n) = if 2 * n % 15 = 0 then 15 else 2 * n % 15 := by
  unfold ceilDiv
  split_ifs <;> omega

/-- Settles O40: the data steps write every group's unit, and the step after them appends the terminator. -/
theorem encodeCompletesWithTheEncoding : Obligations.EncodeCompletesWithTheEncoding := by
  rintro s n k hinv hs hoc hin rfl rfl
  refine ⟨fun m hm => ?_, ?_⟩
  · obtain ⟨u, hrun, hu⟩ := State.run_encodedTo hinv hs hoc hin hm
    exact ⟨u, hrun, hu.state_eq.trans hs⟩
  · obtain ⟨hnb, -, -⟩ := hinv.encRegs hs
    obtain ⟨u, hrun, hu⟩ := State.run_encodedTo hinv hs hoc hin le_rfl
    have hsu : u.state = .encRun := hu.state_eq.trans hs
    have hinu : u.inputs = [] := hu.inputs_eq.trans hin
    have hnbu : u.nb = 32 * s.inLen.toNat := by rw [hu.frame]; exact hnb
    have hiu : u.i = 15 * ceilDiv (32 * s.inLen.toNat) 15 := by rw [hu.frame]
    have hocu : u.oc = ceilDiv (32 * s.inLen.toNat) 15 := by rw [hu.frame]
    have hpast : u.nb ≤ u.i := by
      rw [hnbu, hiu, ceilDiv]
      omega
    have hstep := hu.inv.step_encTerm hsu (.inl hinu) hpast
    rw [State.popped_of_nil hinu] at hstep
    refine ⟨u.afterEncTerm, (run_snoc hrun).trans hstep, rfl, ?_, fun g hg => ?_, ?_, ?_, ?_, ?_⟩
    · rw [← hocu]
      exact lenWord_toNat
    · rw [← hocu] at hg
      exact (hu.result.enc hsu g hg).afterEncTerm hg
    · rw [← terminatorCount_closed, ← hiu, ← hocu, ← hnbu]
      exact u.outEntry_afterEncTerm_toNat
    all_goals
      rw [hu.frame]
      rfl

end Sys2Proof.Machine
end

section
/-! SUPPORT. The statements of 42_decoder.md: what each of the decoder's steps does (R120 to R126), that EMPTY_TRIM =
FAULT alone stops a run (R126, R160), a whole DECODE (R127, R188), and the round trip (R128). -/

namespace Sys2Proof.Machine

open Sys2Proof

/-! ## Errors -/

theorem errWord_eq_ofNat (kind : ErrKind) (cp : CodeUnit) :
    errWord kind cp = BitVec.ofNat 32 (cp.toNat + kind.code.toNat * 65536) := by
  rw [← errWord_toNat, BitVec.ofNat_toNat, BitVec.setWidth_eq]

/-- The error of input unit `k` carries the number `Unit(k)` (R52, R161). -/
theorem State.errWord_unitAt (s : State) (kind : ErrKind) (k : Nat) :
    errWord kind (s.unitAt k) = BitVec.ofNat 32 (s.unitNat k + kind.code.toNat * 65536) := by
  rw [errWord_eq_ofNat, State.unitNat_eq]

theorem State.fromterm_unitAt_of_term {s : State} {k : Nat} (h : TermUnit (s.unitNat k)) :
    fromterm (s.unitAt k) = some (BitVec.ofNat 4 (s.unitNat k - 0x2400)) := by
  rw [State.unitNat_eq] at h ⊢
  obtain ⟨n, hn, hnat⟩ := fromterm_of_term h
  rw [hn, ← hnat, BitVec.ofNat_toNat, BitVec.setWidth_eq]

/-- Settles O41: no unit, a last unit that FROMTERM refuses, and one it reads. -/
theorem decTermChecksTheLastUnit : Obligations.DecTermChecksTheLastUnit := by
  intro s hs
  have hsel := State.selector_decTerm.mpr hs
  refine ⟨fun hz => ?_, fun hpos hfits hbad => ?_, fun hpos hfits hterm => ?_⟩
  · exact ⟨_, execDecTerm_next.mpr ⟨hsel, .inl ⟨hz, rfl⟩⟩, rfl⟩
  · rw [State.unitNat_eq] at hbad
    refine ⟨_, execDecTerm_next.mpr
      ⟨hsel, .inr ⟨by omega, by omega, .inl ⟨fromterm_of_not_term hbad, rfl⟩⟩⟩, ?_⟩
    rw [State.raise, State.errWord_unitAt]
    rfl
  · exact execDecTerm_next.mpr
      ⟨hsel, .inr ⟨by omega, by omega, .inr ⟨_, State.fromterm_unitAt_of_term hterm, rfl⟩⟩⟩

/-- Settles O42. -/
theorem decCharBadRaisesData : Obligations.DecCharBadRaisesData := by
  intro s hs hi hcap hbad
  have hsel := State.selector_decCharBad.mpr ⟨hs, hi, (s.isData_unitAt_eq_false_iff s.i).mpr hbad⟩
  refine ⟨_, execDecCharBad_next.mpr ⟨hsel, hcap, rfl⟩, ?_⟩
  rw [State.raise, State.errWord_unitAt]
  rfl

/-! ## Placements -/

/-- Where the cursor's unit is a data unit, the group placed is the one of its row (R91). -/
theorem State.cursorGroup_toNat {s : State} (h : DataUnit (s.unitNat s.i)) :
    s.cursorGroup.toNat = groupNat (s.unitNat s.i) := by
  rw [State.unitNat_eq] at h ⊢
  obtain ⟨p, hp, hnat⟩ := fromchar_of_data h
  rw [State.cursorGroup, hp, Option.getD_some, hnat]

theorem placeWithin_eq_ofNat (p : Group) (o : Nat) : placeWithin p o = BitVec.ofNat 32 (p.toNat * 2 ^ (17 - o)) := by
  apply BitVec.eq_of_toNat_eq
  rw [placeWithin, BitVec.toNat_shiftLeft, BitVec.toNat_setWidth_of_le (by decide), Nat.shiftLeft_eq,
    BitVec.toNat_ofNat]

theorem placeHigh_eq_ofNat (p : Group) (o : Nat) : placeHigh p o = BitVec.ofNat 32 (p.toNat / 2 ^ (o - 17)) := by
  apply BitVec.eq_of_toNat_eq
  have hlt : p.toNat / 2 ^ (o - 17) < 2 ^ 32 := (Nat.div_le_self _ _).trans_lt (p.isLt.trans (by decide))
  rw [placeHigh, BitVec.toNat_ushiftRight, BitVec.toNat_setWidth_of_le (by decide), Nat.shiftRight_eq_div_pow,
    BitVec.toNat_ofNat, Nat.mod_eq_of_lt hlt]

theorem placeLow_eq_ofNat (p : Group) (o : Nat) :
    placeLow p o = BitVec.ofNat 32 (p.toNat * 2 ^ (49 - o) % 2 ^ 32) := by
  apply BitVec.eq_of_toNat_eq
  rw [placeLow, BitVec.toNat_shiftLeft, BitVec.toNat_setWidth_of_le (by decide), Nat.shiftLeft_eq,
    BitVec.toNat_ofNat, Nat.mod_mod]

/-- A group moved by at most 17 bits stays within a word, so R124's shift drops no bit. -/
theorem group_mul_pow_lt (p : Group) (o : Nat) : p.toNat * 2 ^ (17 - o) < 2 ^ 32 := by
  calc p.toNat * 2 ^ (17 - o) < 2 ^ 15 * 2 ^ (17 - o) := Nat.mul_lt_mul_of_pos_right p.isLt (Nat.two_pow_pos _)
    _ ≤ 2 ^ 15 * 2 ^ 17 := Nat.mul_le_mul_left _ (Nat.pow_le_pow_right (by decide) (by omega))

/-- Settles O43: the entry wi keeps its bits, or starts at 0 where EXTEND added it, and gains the group. -/
theorem decPlaceInOrsTheGroup : Obligations.DecPlaceInOrsTheGroup := by
  rintro s p wi o hs hi hcap hd rfl rfl rfl ho hout
  have hsel := State.selector_decPlaceIn.mpr ⟨hs, hi, (s.isData_unitAt_iff s.i).mpr hd, ho⟩
  obtain ⟨m, hexec, hfind, -⟩ := execDecPlaceIn_spec hsel hcap hout
  rw [← State.cursorGroup_toNat hd, ← placeWithin_eq_ofNat]
  refine ⟨_, hexec, rfl, group_mul_pow_lt _ _, fun k => ?_⟩
  simp only [State.outEntry_def, hfind]
  by_cases hword : k = 15 * s.i / 32
  · simp [hword]
  · split_ifs <;> simp

/-- Settles O44: the same of both entries the group reaches. -/
theorem decPlaceStraddleOrsBothParts : Obligations.DecPlaceStraddleOrsBothParts := by
  rintro s p wi o hs hi hcap hd rfl rfl rfl ho hout
  have hsel := State.selector_decPlaceStraddle.mpr ⟨hs, hi, (s.isData_unitAt_iff s.i).mpr hd, ho⟩
  obtain ⟨m, hexec, hfind, -⟩ := execDecPlaceStraddle_spec hsel hcap hout
  rw [← State.cursorGroup_toNat hd, ← placeHigh_eq_ofNat, ← placeLow_eq_ofNat]
  refine ⟨_, hexec, rfl, fun k => ?_⟩
  simp only [State.outEntry_def, hfind]
  by_cases hword : k = 15 * s.i / 32
  · simp [hword]
  · by_cases hnext : k = 15 * s.i / 32 + 1
    · simp [hnext]
    · split_ifs <;> simp

theorem exec_placement_placed {s t : State} {i : Instr} (hi : i = .decPlaceIn ∨ i = .decPlaceStraddle)
    (hexec : exec i s = .next t) : s.Placed t := by
  obtain rfl | rfl := hi
  · exact execDecPlaceIn_placed hexec
  · exact execDecPlaceStraddle_placed hexec

theorem State.Placed.state_eq {s t : State} (h : s.Placed t) : t.state = .decRun := by
  rw [h.frame]
  exact h.decRun

theorem State.Placed.i_eq {s t : State} (h : s.Placed t) : t.i = s.i + 1 := by
  rw [h.frame]

/-- Settles O45: the invariant says what L is before and after, and 15 more bits reach at most one more word. -/
theorem placementExtendsByAtMostOne : Obligations.PlacementExtendsByAtMostOne := by
  intro s t i hinv hi hexec
  have hp := exec_placement_placed hi hexec
  obtain ⟨-, -, hl⟩ := hinv.decRegs hp.decRun
  obtain ⟨-, -, hl'⟩ := (exec_keeps_inv hinv hexec).decRegs hp.state_eq
  refine ⟨hl, hl', hp.length, ?_⟩
  rw [hl, hl', hp.i_eq]
  unfold ceilDiv
  omega

/-! ## The trim -/

/-- What stops DEC_TRIM: there is no word to drop, and EMPTY_TRIM = FAULT (R126). -/
def State.EmptyTrimFaults (s : State) : Prop := s.tb.toNat < 15 ∧ s.l = 0 ∧ s.params.emptyTrim = .fault

theorem State.trimmedLength_of_faults {s : State} (h : s.EmptyTrimFaults) : s.trimmedLength = .error .emptyTrim := by
  obtain ⟨htb, hl, hfault⟩ := h
  simp [State.trimmedLength, htb, hl, hfault]

theorem State.trimmedLength_of_not_faults {s : State} (h : ¬ s.EmptyTrimFaults) :
    s.trimmedLength = .ok (if s.tb.toNat < 15 then s.l - 1 else s.l) := by
  by_cases htb : s.tb.toNat < 15
  · rw [if_pos htb]
    obtain hl | hl := Nat.eq_zero_or_pos s.l
    · cases hempty : s.params.emptyTrim with
      | noop => exact State.trimmedLength_eq_ok.mpr (.inr (.inl ⟨htb, hl, hempty, by rw [hl]⟩))
      | fault => exact absurd ⟨htb, hl, hempty⟩ h
    · exact State.trimmedLength_eq_ok.mpr (.inl ⟨htb, hl, rfl⟩)
  · rw [if_neg htb]
    exact State.trimmedLength_eq_ok.mpr (.inr (.inr ⟨Nat.le_of_not_lt htb, rfl⟩))

theorem exec_decTrim_of_faults {s : State} (hsel : s.selector = selDecTrim) (h : s.EmptyTrimFaults) :
    exec .decTrim s = .fault .emptyTrim := by
  refine whenSelected_eq_fault.mpr ⟨hsel, ?_⟩
  rw [State.trimmedLength_of_faults h]
  rfl

/-- The state DEC_TRIM leaves where it completes with `n` words (R126). -/
def State.afterTrim (s : State) (n : Nat) : State :=
  { s with l := n, outLen := lenWord n, state := .done, outEra := s.outEra + 1 }

theorem exec_decTrim_of_not_faults {s : State} (hsel : s.selector = selDecTrim) (h : ¬ s.EmptyTrimFaults) :
    exec .decTrim s = .next (s.afterTrim (if s.tb.toNat < 15 then s.l - 1 else s.l)) :=
  execDecTrim_next.mpr ⟨hsel, _, State.trimmedLength_of_not_faults h, rfl⟩

/-- Settles O46. -/
theorem decTrimDropsThePaddingWord : Obligations.DecTrimDropsThePaddingWord := by
  intro s hs hi
  have hsel := State.selector_decTrim.mpr ⟨hs, hi⟩
  exact ⟨fun htb hl hfault => exec_decTrim_of_faults hsel ⟨htb, hl, hfault⟩,
    fun hok => ⟨_, _, exec_decTrim_of_not_faults hsel hok, rfl, rfl, lenWord_toNat⟩⟩

/-! ## What stops a run -/

/-- Only an engine step can fault: every other instruction answers, or refuses its operand. -/
theorem exec_ne_fault {i : Instr} (hi : ¬ EngineStep i) (s : State) (f : Fault) : exec i s ≠ .fault f := by
  cases i with
  | encDataIn | encDataStraddle | encTerm | decTerm | decCharBad | decPlaceIn | decPlaceStraddle | decTrim =>
    exact absurd (by simp [EngineStep]) hi
  | encode | decode | refuse | tochar | rdReg | wrReg | wrIn | rdIn | rdOut | wrOut => exact nofun
  | accReserved w => cases w <;> exact nofun
  | fromchar | toterm | fromterm | unitTerm | unitDataA | unitDataB | unitDataC | unitInvalid =>
    simp only [exec, execFromchar, execToterm, execFromterm, execUnitTerm, execUnitDataA, execUnitDataB,
      execUnitDataC, execUnitInvalid]
    split <;> exact nofun

/-- A fault is the enabled engine step's: anywhere else the step is refused (R84, log 14). -/
theorem enabledStep_of_exec_fault {i : Instr} {s : State} {f : Fault} (h : exec i s = .fault f) :
    s.enabledStep = some i := by
  have hi : EngineStep i := by_contra fun hi => exec_ne_fault hi s f h
  by_contra hne
  rw [engineStepsRunOnlyWhereEnabled i s hi hne] at h
  cases h

/-- In a run, a data unit before the last is placed: one of the two placements is enabled and its entries exist (R54,
R84, R124, R125). -/
theorem State.Inv.exec_placement {s : State} (h : s.Inv) (hs : s.state = .decRun) (hi : s.i + 1 < s.inLen.toNat)
    (hd : isData (s.unitAt s.i) = true) : ∃ i t, s.enabledStep = some i ∧ exec i s = .next t ∧ s.Placed t := by
  have hfits := h.inLenFits (s.busy_iff.mpr (.inr (.inr hs)))
  have hcap : s.i < s.params.capIn := by omega
  have hout := h.placement_lt_capOut hcap
  by_cases ho : 15 * s.i % 32 ≤ 17
  · have hsel := State.selector_decPlaceIn.mpr ⟨hs, hi, hd, ho⟩
    obtain ⟨m, hexec, -⟩ := execDecPlaceIn_spec hsel hcap (by omega)
    exact ⟨_, _, State.enabledStep_of_selector hsel rfl, hexec, execDecPlaceIn_placed hexec⟩
  · have hsel := State.selector_decPlaceStraddle.mpr ⟨hs, hi, hd, Nat.lt_of_not_le ho⟩
    obtain ⟨m, hexec, -⟩ := execDecPlaceStraddle_spec hsel hcap hout
    exact ⟨_, _, State.enabledStep_of_selector hsel rfl, hexec, execDecPlaceStraddle_placed hexec⟩

/-- In DEC_RUN an engine step answers, or it is the trim that EMPTY_TRIM = FAULT stops (R126). -/
theorem State.Inv.exec_decRun {s : State} (h : s.Inv) (hs : s.state = .decRun) :
    ∃ i, s.enabledStep = some i ∧
      ((∃ t, exec i s = .next t) ∨ s.EmptyTrimFaults ∧ exec i s = .fault .emptyTrim) := by
  obtain ⟨-, hle, -⟩ := h.decRegs hs
  have hfits := h.inLenFits (s.busy_iff.mpr (.inr (.inr hs)))
  obtain hlast | hi := hle.eq_or_lt
  · have hsel := State.selector_decTrim.mpr ⟨hs, hlast⟩
    refine ⟨.decTrim, State.enabledStep_of_selector hsel rfl, ?_⟩
    by_cases hempty : s.EmptyTrimFaults
    · exact .inr ⟨hempty, exec_decTrim_of_faults hsel hempty⟩
    · exact .inl ⟨_, exec_decTrim_of_not_faults hsel hempty⟩
  · cases hd : isData (s.unitAt s.i) with
    | false =>
      have hsel := State.selector_decCharBad.mpr ⟨hs, hi, hd⟩
      exact ⟨.decCharBad, State.enabledStep_of_selector hsel rfl,
        .inl ⟨_, execDecCharBad_next.mpr ⟨hsel, by omega, rfl⟩⟩⟩
    | true =>
      obtain ⟨i, t, henabled, hexec, -⟩ := h.exec_placement hs hi hd
      exact ⟨i, henabled, .inl ⟨t, hexec⟩⟩

/-- At most one step is enabled, so it is the one that gets on. -/
theorem State.Progresses.exec_enabled {s : State} {i : Instr} (h : s.Progresses) (hi : s.enabledStep = some i) :
    ∃ t, exec i s = .next t := by
  obtain ⟨j, t, hj, hexec, -⟩ := h
  obtain rfl := Option.some.inj (hj.symm.trans hi)
  exact ⟨t, hexec⟩

/-- In a run the enabled step answers a next state, or it is the trim that EMPTY_TRIM = FAULT stops (R126, R160). -/
theorem State.Inv.exec_enabled {s : State} (h : s.Inv) {i : Instr} (hi : s.enabledStep = some i) :
    (∃ t, exec i s = .next t) ∨ (s.state = .decRun ∧ s.EmptyTrimFaults ∧ exec i s = .fault .emptyTrim) := by
  have hb : s.busy = true := by
    by_contra hb
    rw [State.enabledStep_of_not_busy (Bool.eq_false_iff.mpr hb)] at hi
    cases hi
  obtain hs | hs | hs := s.busy_iff.mp hb
  · exact .inl ((State.progresses_of_encRun h hs).exec_enabled hi)
  · exact .inl ((State.progresses_of_decTerm h hs).exec_enabled hi)
  · obtain ⟨j, hj, hexec⟩ := h.exec_decRun hs
    obtain rfl := Option.some.inj (hj.symm.trans hi)
    exact hexec.imp_right fun hfault => ⟨hs, hfault⟩

/-- A step that faults is an instruction that faults, with the event taken off. -/
theorem exec_fault_of_step {s : State} {f : Fault} (h : step s = .fault f) : ∃ i, exec i s.popped = .fault f := by
  by_cases hmoves : s.EngineMoves
  · cases hi : s.enabledStep with
    | some i => exact ⟨i, (step_of_enabled hmoves hi).symm.trans h⟩
    | none => exact absurd ((step_of_not_enabled hmoves hi).symm.trans h) nofun
  · match hin : s.inputs with
    | [] => exact absurd (.inl hin) hmoves
    | .engine :: rest => exact absurd (.inr ⟨rest, hin⟩) hmoves
    | .reset :: rest => exact absurd ((step_of_resetNext ⟨rest, hin⟩).symm.trans h) nofun
    | .issue r :: rest =>
      cases hdec : decode r with
      | ok i => exact ⟨i, (step_of_issue hin hdec).symm.trans h⟩
      | error why =>
        simp only [step, fetch, hin, hdec] at h
        cases h

/-- Settles O13: a fault is the enabled step's, and that one answers but for the model fault. -/
theorem onlyEmptyTrimStopsARun : Obligations.OnlyEmptyTrimStopsARun := by
  intro s hinv
  refine ⟨fun f hstep => ?_, fun r hmoves hstep => ?_⟩
  · obtain ⟨i, hexec⟩ := exec_fault_of_step hstep
    obtain ⟨t, ht⟩ | ⟨hs, ⟨htb, hl, hfault⟩, he⟩ := hinv.popped.exec_enabled (enabledStep_of_exec_fault hexec)
    · exact absurd (ht.symm.trans hexec) nofun
    · exact ⟨Host.Outcome.fault.inj (hexec.symm.trans he), hfault, hs, htb, hl⟩
  · cases hi : s.enabledStep with
    | none => exact absurd ((step_of_not_enabled hmoves hi).symm.trans hstep) nofun
    | some i =>
      rw [step_of_enabled hmoves hi] at hstep
      obtain ⟨t, ht⟩ | ⟨-, -, he⟩ := hinv.popped.exec_enabled (i := i) hi
      · exact absurd (ht.symm.trans hstep) nofun
      · exact absurd (he.symm.trans hstep) nofun

/-! ## A whole DECODE -/

/-- `s` is at the start of a DECODE of `k` data units and a terminator, the engine alone (R127, log 3). -/
structure State.DecodeStart (s : State) (k : Nat) : Prop where
  inv : s.Inv
  decTerm : s.state = .decTerm
  alone : s.inputs = []
  length : s.inLen.toNat = k + 1
  term : TermUnit (s.unitNat k)
  data : ∀ j < k, DataUnit (s.unitNat j)

/-- `u` is `s`, the start of a DECODE, after DEC_TERM has read the terminator at `k` and `m` units have been placed:
nothing but OUT_BUF and the decoder's registers has moved (R120, R121). -/
structure State.DecodedTo (s : State) (k m : Nat) (u : State) : Prop where
  inv : u.Inv
  result : u.ResultInv
  frame : u = { s with
    state := .decRun, tb := BitVec.ofNat 4 (s.unitNat k - 0x2400), i := m, l := u.l, outBuf := u.outBuf }

theorem State.DecodedTo.decRun {s u : State} {k m : Nat} (h : s.DecodedTo k m u) : u.state = .decRun := by
  rw [h.frame]

theorem State.DecodedTo.i_eq {s u : State} {k m : Nat} (h : s.DecodedTo k m u) : u.i = m := by
  rw [h.frame]

theorem State.DecodedTo.inputs_eq {s u : State} {k m : Nat} (h : s.DecodedTo k m u) : u.inputs = s.inputs := by
  rw [h.frame]

theorem State.DecodedTo.inLen_eq {s u : State} {k m : Nat} (h : s.DecodedTo k m u) : u.inLen = s.inLen := by
  rw [h.frame]

theorem State.DecodedTo.unitNat_eq {s u : State} {k m : Nat} (h : s.DecodedTo k m u) (j : Nat) :
    u.unitNat j = s.unitNat j := by
  rw [h.frame]
  rfl

/-- L is the number of words the placed units reach (R122). -/
theorem State.DecodedTo.l_eq {s u : State} {k m : Nat} (h : s.DecodedTo k m u) : u.l = ceilDiv (15 * m) 32 := by
  obtain ⟨-, -, hl⟩ := h.inv.decRegs h.decRun
  rw [hl, h.i_eq]

/-- Four bits hold the terminator's count (R73). -/
theorem State.DecodedTo.tb_toNat {s u : State} {k m : Nat} (h : s.DecodedTo k m u) (hterm : TermUnit (s.unitNat k)) :
    u.tb.toNat = s.unitNat k - 0x2400 := by
  have hcount : s.unitNat k - 0x2400 < 2 ^ 4 := by
    unfold TermUnit at hterm
    omega
  rw [h.frame, BitVec.toNat_ofNat, Nat.mod_eq_of_lt hcount]

/-- DEC_TERM reads the terminator, and no unit is placed yet (R120). -/
theorem State.DecodeStart.step_decTerm {s : State} {k : Nat} (h : s.DecodeStart k) :
    ∃ u, step s = .next u ∧ s.DecodedTo k 0 u := by
  have hb : s.busy = true := s.busy_iff.mpr (.inr (.inl h.decTerm))
  have hfits := h.inv.inLenFits hb
  have hlen := h.length
  have hlast : s.inLen.toNat - 1 = k := by omega
  obtain ⟨-, -, hread⟩ := decTermChecksTheLastUnit s h.decTerm
  rw [hlast] at hread
  have henabled : s.enabledStep = some .decTerm :=
    State.enabledStep_of_selector (State.selector_decTerm.mpr h.decTerm) rfl
  have hstep := step_of_enabled (.inl h.alone) henabled
  rw [State.popped_of_nil h.alone, hread (by omega) hfits h.term] at hstep
  have hresult : s.ResultInv := State.resultInv_of_ne (by simp [h.decTerm]) (by simp [h.decTerm])
  exact ⟨_, hstep, stepKeepsTheInvariant s _ h.inv hstep, stepKeepsTheResultRight s _ h.inv hresult hstep, rfl⟩

/-- One more placement, where a data unit is left. -/
theorem State.DecodedTo.step {s u : State} {k m : Nat} (h : s.DecodedTo k m u) (hstart : s.DecodeStart k)
    (hm : m < k) : ∃ v, Machine.step u = .next v ∧ s.DecodedTo k (m + 1) v := by
  have hin : u.inputs = [] := h.inputs_eq.trans hstart.alone
  have hi : u.i + 1 < u.inLen.toNat := by
    rw [h.i_eq, h.inLen_eq, hstart.length]
    omega
  have hd : isData (u.unitAt u.i) = true := by
    rw [State.isData_unitAt_iff, h.i_eq, h.unitNat_eq]
    exact hstart.data m hm
  obtain ⟨i, v, henabled, hexec, hp⟩ := h.inv.exec_placement h.decRun hi hd
  have hstep : Machine.step u = .next v := by
    rw [step_of_enabled (.inl hin) henabled, State.popped_of_nil hin, hexec]
  refine ⟨v, hstep, stepKeepsTheInvariant u v h.inv hstep, stepKeepsTheResultRight u v h.inv h.result hstep, ?_⟩
  rw [hp.frame, h.frame]

/-- The first step reads the terminator, and each of the next `k` places a unit (R127). -/
theorem State.DecodeStart.run_decodedTo {s : State} {k m : Nat} (h : s.DecodeStart k) (hm : m ≤ k) :
    ∃ u : State, core.run (m + 1) s = .next u ∧ s.DecodedTo k m u := by
  induction m with
  | zero =>
    obtain ⟨u, hstep, hu⟩ := h.step_decTerm
    exact ⟨u, (coreRun_one (M := core) s).trans hstep, hu⟩
  | succ m ih =>
    obtain ⟨u, hrun, hu⟩ := ih (Nat.le_of_succ_le hm)
    obtain ⟨v, hstep, hv⟩ := hu.step h hm
    exact ⟨v, (run_snoc hrun).trans hstep, hv⟩

theorem State.DecodeStart.busy_before_end {s : State} {k m : Nat} (h : s.DecodeStart k) (hm : m ≤ k + 1) :
    ∃ u : State, core.run m s = .next u ∧ u.busy = true := by
  cases m with
  | zero => exact ⟨s, rfl, s.busy_iff.mpr (.inr (.inl h.decTerm))⟩
  | succ m =>
    obtain ⟨u, hrun, hu⟩ := h.run_decodedTo (Nat.le_of_succ_le_succ hm)
    exact ⟨u, hrun, u.busy_iff.mpr (.inr (.inr hu.decRun))⟩

/-- The words L counts have been written, so the trim's new era leaves them (R61, R126). -/
theorem State.Inv.outEntry_afterTrim {s : State} (h : s.Inv) (hs : s.state = .decRun) {j : Nat} (hj : j < s.l)
    (n : Nat) : (s.afterTrim n).outEntry j = s.outEntry j := by
  obtain ⟨w, hw⟩ := Option.isSome_iff_exists.mp
    (h.busyWritten (s.busy_iff.mpr (.inr (.inr hs))) j (by rwa [State.outLive_of_decRun hs]))
  rw [State.outEntry_def, State.outEntry_def, hw]
  show (s.outBuf.find j).getD _ = _
  rw [hw]
  rfl

/-- Once every unit is placed the engine trims, where EMPTY_TRIM does not stop it (R126). -/
theorem State.DecodedTo.step_decTrim {s u : State} {k : Nat} (h : s.DecodedTo k k u) (hstart : s.DecodeStart k)
    (hok : ¬ u.EmptyTrimFaults) :
    Machine.step u = .next (u.afterTrim (if u.tb.toNat < 15 then u.l - 1 else u.l)) := by
  have hin : u.inputs = [] := h.inputs_eq.trans hstart.alone
  have hlast : u.i + 1 = u.inLen.toNat := by rw [h.i_eq, h.inLen_eq, hstart.length]
  have hsel := State.selector_decTrim.mpr ⟨h.decRun, hlast⟩
  have henabled : u.enabledStep = some .decTrim := State.enabledStep_of_selector hsel rfl
  rw [step_of_enabled (.inl hin) henabled, State.popped_of_nil hin, exec_decTrim_of_not_faults hsel hok]

/-- Settles O47: DEC_TERM, a placement for each unit, and the trim of the words they reach. -/
theorem decodeCompletesWithTheWords : Obligations.DecodeCompletesWithTheWords := by
  intro s k n hinv hs hin hlen hterm hn hdata hempty
  have hstart : s.DecodeStart k := ⟨hinv, hs, hin, hlen, hterm, hdata⟩
  refine ⟨fun m hm => hstart.busy_before_end hm, ?_⟩
  obtain ⟨u, hrun, hu⟩ := hstart.run_decodedTo le_rfl
  have htb : u.tb.toNat = n := (hu.tb_toNat hterm).trans hn.symm
  have hl := hu.l_eq
  have hok : ¬ u.EmptyTrimFaults := by
    rintro ⟨htb', hl', hfault⟩
    have hparams : u.params = s.params := by rw [hu.frame]
    rw [hparams] at hfault
    rw [hl, ceilDiv] at hl'
    obtain h15 | hk | hnoop := hempty
    · omega
    · omega
    · exact absurd (hnoop.symm.trans hfault) nofun
  have hstep := hu.step_decTrim hstart hok
  rw [htb, hl] at hstep
  have hwords : (if n < 15 then ceilDiv (15 * k) 32 - 1 else ceilDiv (15 * k) 32) ≤ u.l := by
    rw [hl]
    split_ifs <;> omega
  have hsmall : u.l < 2 ^ 32 := by
    have hlt := s.inLen.isLt
    rw [hl, ceilDiv]
    omega
  refine ⟨_, (run_snoc hrun).trans hstep, rfl, lenWord_toNat (hwords.trans_lt hsmall), fun x hx => ?_, ?_, ?_, ?_⟩
  · have hx : x < 32 * u.l := by
      simp only [State.afterTrim, lenWord_toNat (hwords.trans_lt hsmall)] at hx
      omega
    have hunit : u.unitBit x = s.unitBit x := by rw [hu.frame]; rfl
    rw [State.outBit, hu.inv.outEntry_afterTrim hu.decRun (by omega), ← hunit, ← hu.i_eq]
    exact hu.result.dec hu.decRun x hx
  all_goals
    rw [hu.frame]
    rfl

/-! ## The round trip -/

/-- The engine alone changes neither the parameters nor what an unwritten IN_BUF entry reads as (logs 1, 3, 11). -/
theorem step_keeps_params_resets {s t : State} (hin : s.inputs = []) (hstep : step s = .next t) :
    t.params = s.params ∧ t.resets = s.resets := by
  obtain ⟨⟨_, hr⟩, -⟩ | ⟨-, -, rfl⟩ | ⟨i, hexec, ⟨-, hi⟩ | ⟨_, _, hissue, -⟩⟩ := step_cases_popped hstep
  · rw [hin] at hr
    cases hr
  · exact ⟨rfl, rfl⟩
  · obtain ⟨-, -, hframe, -⟩ := engine_effect (State.enabledStep_cases hi) hexec
    rw [hframe]
    exact ⟨rfl, rfl⟩
  · rw [hin] at hissue
    cases hissue

theorem run_keeps_params_resets {m : Nat} {s t : State} (hin : s.inputs = []) (hrun : core.run m s = .next t) :
    t.params = s.params ∧ t.resets = s.resets := by
  induction m generalizing s with
  | zero =>
    obtain rfl := Host.Outcome.next.inj hrun
    exact ⟨rfl, rfl⟩
  | succ m ih =>
    obtain ⟨u, hstep, hrun⟩ := run_succ_eq_next.mp hrun
    obtain ⟨hinputs, -⟩ := stepTakesOneEventAndKeepsTheParameters s u hstep
    obtain ⟨hparams, hresets⟩ := step_keeps_params_resets hin hstep
    obtain ⟨hparams', hresets'⟩ := ih (by rw [hinputs, hin, List.tail_nil]) hrun
    exact ⟨hparams'.trans hparams, hresets'.trans hresets⟩

theorem exec_encode_of_accepted {s : State} (hb : s.busy = false) (hl : s.inLen.toNat ≤ s.params.capIn) :
    exec .encode s = .next s.startEncode := by
  simp [exec, execEncode, State.cmdWrite, hb, Nat.not_lt.mpr hl]

theorem exec_decode_of_accepted {s : State} (hb : s.busy = false) (hl : s.inLen.toNat ≤ s.params.capIn) :
    exec .decode s = .next s.startDecode := by
  simp [exec, execDecode, State.cmdWrite, hb, Nat.not_lt.mpr hl]

/-- The terminator R107 appends to the encoding of `n` words counts the bits of the last group, 1 to 15. -/
theorem terminatorCount_range (n : Nat) :
    1 ≤ (if 2 * n % 15 = 0 then 15 else 2 * n % 15) ∧ (if 2 * n % 15 = 0 then 15 else 2 * n % 15) ≤ 15 := by
  split_ifs <;> omega

/-- The groups of `n` words reach one word more than `n`, the padding's, but where the last group is full (R107,
R127). -/
theorem decodedLength_of_encoded (n : Nat) :
    (if (if 2 * n % 15 = 0 then 15 else 2 * n % 15) < 15 then ceilDiv (15 * ceilDiv (32 * n) 15) 32 - 1
      else ceilDiv (15 * ceilDiv (32 * n) 15) 32) = n := by
  rw [← terminatorCount_closed]
  unfold ceilDiv
  split_ifs <;> omega

/-- A unit of `d` whose entry is the data unit of group `g` of `t` carries that group's bits of the stream (R51,
R91). -/
theorem State.HoldsGroup.unitBit_eq {t d : State} {x : Nat} (h : t.HoldsGroup (x / 15))
    (hentry : d.inEntry (x / 15) = t.outEntry (x / 15)) : d.unitBit x = t.streamBit x := by
  obtain ⟨p, hp, hbits⟩ := h
  rw [State.unitBit, State.unitAt, hentry, hp, setWidth_setWidth_cancel (by decide), fromchar_tochar,
    Option.getD_some, hbits _ (by omega)]
  congr 1
  omega

theorem State.HoldsGroup.dataUnit {t d : State} {g : Nat} (h : t.HoldsGroup g)
    (hentry : d.inEntry g = t.outEntry g) : DataUnit (d.unitNat g) := by
  obtain ⟨p, hp, -⟩ := h
  rw [State.unitNat_eq, State.unitAt, hentry, hp, setWidth_setWidth_cancel (by decide)]
  exact dataUnit_tochar p

/-- OUT_BUF entries that hold the stream's bits are the stream's words (R51). -/
theorem State.outEntry_eq_of_bits {r s : State} {j : Nat} (hj : j < s.inLen.toNat)
    (h : ∀ x, x < 32 * s.inLen.toNat → r.outBit x = s.streamBit x) : r.outEntry j = s.inEntry j := by
  refine BitVec.eq_of_getLsbD_eq fun b hb => ?_
  have hx : 32 * j + (31 - b) < 32 * s.inLen.toNat := by omega
  have hword : (32 * j + (31 - b)) / 32 = j := by omega
  have hbit : 31 - (32 * j + (31 - b)) % 32 = b := by omega
  have hbits := h _ hx
  rwa [State.outBit, State.streamBit, hword, hbit, decide_eq_true hx, Bool.true_and] at hbits

/-- What an ENCODE of the input of `s` leaves in `t` (R106, R107). -/
structure State.EncodedAs (s t : State) (k : Nat) : Prop where
  words : k = ceilDiv (32 * s.inLen.toNat) 15
  length : t.outLen.toNat = k + 1
  groups : ∀ g < k, t.HoldsGroup g
  term : (t.outEntry k).toNat
    = 0x2400 + (if 2 * s.inLen.toNat % 15 = 0 then 15 else 2 * s.inLen.toNat % 15)
  stream : ∀ x, t.streamBit x = s.streamBit x

/-- `d` holds the string that `t` has as its result (R128). -/
structure State.LoadedFrom (d t : State) : Prop where
  length : d.inLen = t.outLen
  entries : ∀ j < t.outLen.toNat, d.inEntry j = t.outEntry j

/-- START_DECODE leaves the input (R143). -/
theorem State.LoadedFrom.startDecode {d t : State} (h : d.LoadedFrom t) : d.startDecode.LoadedFrom t :=
  ⟨h.length, h.entries⟩

/-- The terminator of the encoding, read as the last unit of the string (R52, R107). -/
theorem State.EncodedAs.unitNat_term {s t d : State} {k : Nat} (h : s.EncodedAs t k) (hd : d.LoadedFrom t) :
    d.unitNat k = 0x2400 + (if 2 * s.inLen.toNat % 15 = 0 then 15 else 2 * s.inLen.toNat % 15) := by
  have hrange := terminatorCount_range s.inLen.toNat
  have hk : k < t.outLen.toNat := by rw [h.length]; exact Nat.lt_succ_self k
  rw [State.unitNat, hd.entries k hk, h.term]
  exact Nat.mod_eq_of_lt (by omega)

theorem State.EncodedAs.dataUnit {s t d : State} {k : Nat} (h : s.EncodedAs t k) (hd : d.LoadedFrom t) {j : Nat}
    (hj : j < k) : DataUnit (d.unitNat j) :=
  (h.groups j hj).dataUnit (hd.entries j (by rw [h.length]; omega))

/-- The units' bits are the stream's, as far as the input goes (R51, R106). -/
theorem State.EncodedAs.unitBit_eq {s t d : State} {k : Nat} (h : s.EncodedAs t k) (hd : d.LoadedFrom t) {x : Nat}
    (hx : x < 15 * k) : d.unitBit x = s.streamBit x := by
  have hg : x / 15 < k := by omega
  rw [(h.groups _ hg).unitBit_eq (hd.entries _ (by rw [h.length]; omega)), h.stream]

/-- The encoding of no word is the terminator of a full group alone, which EMPTY_TRIM does not concern (R107, R126). -/
theorem State.EncodedAs.full_or_pos {s t : State} {k : Nat} (h : s.EncodedAs t k) :
    (if 2 * s.inLen.toNat % 15 = 0 then 15 else 2 * s.inLen.toNat % 15) = 15 ∨ 0 < k := by
  have hk := h.words
  unfold ceilDiv at hk
  split_ifs <;> omega

/-- A whole ENCODE from an idle state (R106, R107, R142). -/
theorem State.Inv.encode_completes {s : State} {k : Nat} (h : s.Inv) (hin : s.inputs = [])
    (hl : s.inLen.toNat ≤ s.params.capIn) (hk : k = ceilDiv (32 * s.inLen.toNat) 15) (hsmall : k + 1 < 2 ^ 32) :
    ∃ t : State, core.run (k + 1) s.startEncode = .next t ∧ t.state = .done ∧ t.params = s.params
      ∧ s.EncodedAs t k := by
  obtain ⟨-, t, hrun, hdone, hlen, hgroups, hterm, -, hinLen, hinBuf⟩ :=
    encodeCompletesWithTheEncoding s.startEncode _ k (h.startEncode hl) rfl rfl hin rfl hk
  obtain ⟨hparams, hresets⟩ := run_keeps_params_resets (s := s.startEncode) hin hrun
  refine ⟨t, hrun, hdone, hparams, hk, hlen hsmall, hgroups, hterm, fun x => ?_⟩
  rw [State.streamBit, hinLen, State.inEntry_congr hinBuf hresets]
  rfl

/-- A whole DECODE of the result gives the words back (R127, R128, R143). -/
theorem State.EncodedAs.decode_completes {s t d : State} {k : Nat} (h : s.EncodedAs t k) (hd : d.LoadedFrom t)
    (hinv : d.Inv) (hin : d.inputs = []) (hl : d.inLen.toNat ≤ d.params.capIn) :
    ∃ r : State, core.run (k + 2) d.startDecode = .next r ∧ r.state = .done ∧ r.outLen = s.inLen
      ∧ ∀ j, j < s.inLen.toNat → r.outEntry j = s.inEntry j := by
  have hd := hd.startDecode
  have hterm := h.unitNat_term hd
  have hrange := terminatorCount_range s.inLen.toNat
  have hdlen : d.startDecode.inLen.toNat = k + 1 := (congrArg BitVec.toNat hd.length).trans h.length
  have hreach : 32 * s.inLen.toNat ≤ 15 * k := by
    rw [h.words, ceilDiv]
    omega
  obtain ⟨-, r, hrun, hdone, hlen, hbits, -⟩ :=
    decodeCompletesWithTheWords d.startDecode k _ (hinv.startDecode hl) rfl hin hdlen
      (by rw [hterm]; exact ⟨by omega, by omega⟩) (by rw [hterm, Nat.add_sub_cancel_left])
      (fun j hj => h.dataUnit hd hj) (by rw [← or_assoc]; exact .inl h.full_or_pos)
  rw [h.words, decodedLength_of_encoded] at hlen
  refine ⟨r, hrun, hdone, BitVec.eq_of_toNat_eq hlen, fun j hj => State.outEntry_eq_of_bits hj fun x hx => ?_⟩
  have hx15 : x < 15 * k := by omega
  rw [hbits x (by rw [hlen]; exact hx), decide_eq_true hx15, Bool.true_and]
  exact h.unitBit_eq hd hx15

/-- Settles O49: the units of the encoding carry the stream's bits, and decoding puts them back in order. -/
theorem roundTripGivesTheWordsBack : Obligations.RoundTripGivesTheWordsBack := by
  intro s d k hinv hb hin hl hk hcap hsmall
  obtain ⟨t, hrun, hdone, hparams, henc⟩ := hinv.encode_completes hin hl hk hsmall
  refine ⟨s.startEncode, t, exec_encode_of_accepted hb hl, hrun, hdone, fun hdinv hdb hdin hdparams hdlen hd => ?_⟩
  have hdl : d.inLen.toNat ≤ d.params.capIn := by rw [hdlen, henc.length, hdparams, hparams]; exact hcap
  obtain ⟨r, hrun', hr⟩ := henc.decode_completes ⟨hdlen, hd⟩ hdinv hdin hdl
  exact ⟨d.startDecode, r, exec_decode_of_accepted hdb hdl, by rw [henc.length]; exact hrun', hr⟩

end Sys2Proof.Machine
end

section
/-! SUPPORT. The statements of 43_host_commands.md: what a CMD write starts or refuses (R140 to R144), what the host
reads and writes in REG, IN_BUF, OUT_BUF and the reserved space (R145 to R151), and what alone starts an operation. -/

namespace Sys2Proof.Machine

open Sys2Proof

/-! ## CMD writes -/

/-- Every form of a CMD write is R140's operation on the value it carries (log 7). -/
theorem exec_of_cmdWriteForm {i : Instr} {v : Word} (h : CmdWriteForm i v) (s : State) :
    exec i s = .next (s.cmdWrite v) := by
  obtain ⟨rfl, rfl⟩ | ⟨rfl, rfl⟩ | rfl | rfl := h <;> rfl

/-- Settles O21: each cause is the first condition of R140's order that holds. -/
theorem refusedCommandSetsOnlyItsCause : Obligations.RefusedCommandSetsOnlyItsCause := by
  intro i v s hform
  rw [exec_of_cmdWriteForm hform]
  refine ⟨fun hb => ?_, fun hb hencode hdecode => ?_, fun hb hword hlong => ?_⟩
  · rw [State.cmdWrite_of_busy hb]
    rfl
  · have hno : ¬ (v = 0x00000001#32 ∨ v = 0x00000002#32) := not_or.mpr ⟨hencode, hdecode⟩
    rw [State.cmdWrite_of_not_accepted fun hacc => hno hacc.1, hb, if_neg Bool.false_ne_true, if_neg hno]
    rfl
  · rw [State.cmdWrite_of_not_accepted fun hacc => Nat.not_lt.mpr hacc.2.2 hlong, hb, if_neg Bool.false_ne_true,
      if_pos hword]
    rfl

/-- Settles O22: the row ENCODE's meaning is that of every form that writes its word. -/
theorem encodeCommandStarts : Obligations.EncodeCommandStarts := fun _ s hform hb hl =>
  ⟨s.startEncode, (exec_of_cmdWriteForm hform s).trans (exec_encode_of_accepted hb hl), rfl⟩

/-- Settles O23: the row DECODE's meaning is that of every form that writes its word. -/
theorem decodeCommandStarts : Obligations.DecodeCommandStarts := fun _ s hform hb hl =>
  ⟨s.startDecode, (exec_of_cmdWriteForm hform s).trans (exec_decode_of_accepted hb hl), rfl⟩

/-- BUSY is a function of STATE (R28). -/
theorem State.busy_congr {s t : State} (h : t.state = s.state) : t.busy = s.busy := by
  rw [State.busy, State.busy, h]

/-- Settles O53: a reset ends in IDLE, and while no operation runs any other step but an accepted command keeps
STATE. -/
theorem onlyAnAcceptedCommandStarts : Obligations.OnlyAnAcceptedCommandStarts := by
  intro s t hb hstep ht
  by_contra hacc
  have hidle : t.busy = false := by
    by_cases hreset : s.ResetNext
    · obtain rfl := Host.Outcome.next.inj ((step_of_resetNext hreset).symm.trans hstep)
      rfl
    · have hstate : t.state = s.state := by rw [step_frame_of_not_busy hb hacc hreset hstep]
      rw [State.busy_congr hstate, hb]
  exact Bool.false_ne_true (hidle.symm.trans ht)

/-! ## REG reads -/

/-- A field put above the `k` bits a word occupies adds its value there. -/
theorem toNat_or_field_shiftLeft {n k : Nat} {w : Word} {x : BitVec n} (hw : w.toNat < 2 ^ k) (hk : n + k ≤ 32) :
    (w ||| x.setWidth 32 <<< k).toNat = w.toNat + 2 ^ k * x.toNat := by
  have hfit : 2 ^ k * x.toNat < 2 ^ 32 := calc
    2 ^ k * x.toNat < 2 ^ k * 2 ^ n := Nat.mul_lt_mul_of_pos_left x.isLt (Nat.two_pow_pos k)
    _ = 2 ^ (n + k) := by rw [← Nat.pow_add, Nat.add_comm]
    _ ≤ 2 ^ 32 := Nat.pow_le_pow_right (by decide) hk
  have hshift : (x.setWidth 32 <<< k).toNat = 2 ^ k * x.toNat := by
    rw [BitVec.toNat_shiftLeft, BitVec.toNat_setWidth_of_le (by omega), Nat.shiftLeft_eq, Nat.mul_comm,
      Nat.mod_eq_of_lt hfit]
  rw [BitVec.toNat_or, hshift, Nat.or_comm, ← Nat.two_pow_add_eq_or_of_lt hw, Nat.add_comm]

/-- The fields of STATUS stand in separate bits, so the word is their sum (R26, R145). -/
theorem State.statusWord_toNat (s : State) :
    s.statusWord.toNat
      = s.state.code.toNat + 8 * s.busy.toNat + 16 * s.cmdErr.toNat + 32 * s.cmdCause.code.toNat := by
  have hstate : s.state.code.toNat < 8 := s.state.code.isLt
  have hbusy := s.busy.toNat_lt
  have herr := s.cmdErr.toNat_lt
  have hcode : (s.state.code.setWidth 32).toNat = s.state.code.toNat := BitVec.toNat_setWidth_of_le (by decide)
  have hto3 := toNat_or_field_shiftLeft (k := 3) (x := BitVec.ofBool s.busy) (hcode.trans_lt hstate) (by decide)
  rw [hcode, BitVec.toNat_ofBool] at hto3
  have hto4 := toNat_or_field_shiftLeft (k := 4) (x := BitVec.ofBool s.cmdErr) (hto3.trans_lt (by omega)) (by decide)
  rw [hto3, BitVec.toNat_ofBool] at hto4
  rw [State.statusWord, toNat_or_field_shiftLeft (hto4.trans_lt (by omega)) (by decide), hto4]
  rfl

theorem State.errCp_toNat (s : State) : s.errCp.toNat = s.errInfo.toNat % 65536 := BitVec.toNat_setWidth 16 s.errInfo

theorem State.errKind_toNat (s : State) : s.errKind.toNat = s.errInfo.toNat / 65536 % 4 := by
  rw [State.errKind, BitVec.toNat_setWidth, BitVec.toNat_ushiftRight, Nat.shiftRight_eq_div_pow]

/-- In a run ERR_INFO has no bit outside CP and KIND (R32). -/
theorem State.Inv.errInfo_toNat {s : State} (h : s.Inv) :
    s.errInfo.toNat = s.errCp.toNat + s.errKind.toNat * 65536 := by
  obtain ⟨kind, cp, herr, -⟩ := h.errForm
  have hcp := cp.isLt
  have hkind := kind.code.isLt
  rw [State.errCp_toNat, State.errKind_toNat, herr, errWord_toNat]
  omega

/-- The reserved indices read 0 (R145). -/
theorem State.regValue_of_reserved (s : State) : ∀ {j : Nat}, 5 ≤ j → s.regValue j = 0#32
  | _ + 5, _ => rfl

/-- Settles O25: the read returns R145's value at each index. -/
theorem regReadReturnsTheRegister : Obligations.RegReadReturnsTheRegister := by
  refine fun j s =>
    ⟨s.regValue j, (readsAs_rdReg j).returns s, ?_, ?_, ?_, ?_, ?_, s.regValue_of_reserved⟩ <;> rintro rfl
  · rfl
  · exact s.statusWord_toNat
  · rfl
  · rfl
  · exact ⟨rfl, State.Inv.errInfo_toNat⟩

/-! ## REG writes other than CMD -/

theorem State.regWrite_inLen_of_not_busy {s : State} (hb : s.busy = false) (v : Word) :
    s.regWrite 2 v = { s with inLen := v } := if_neg (Bool.eq_false_iff.mp hb)

/-- Only CMD and IN_LEN can be written (R146). -/
theorem State.regWrite_of_ne {j : Nat} (hcmd : j ≠ 0) (hinLen : j ≠ 2) (s : State) (v : Word) :
    s.regWrite j v = s := by
  unfold State.regWrite
  split
  · contradiction
  · contradiction
  · rfl

/-- Settles O26: an index other than IN_LEN's takes no write, and BUSY = 1 shuts IN_LEN too. -/
theorem regWriteStoresOnlyInLen : Obligations.RegWriteStoresOnlyInLen := by
  intro j v s hcmd
  refine ⟨?_, fun hignored => congrArg Host.Outcome.next ?_⟩
  · rintro rfl hb
    exact congrArg Host.Outcome.next (State.regWrite_inLen_of_not_busy hb v)
  · obtain hinLen | hb := hignored
    · exact State.regWrite_of_ne hcmd hinLen s v
    · exact State.regWrite_of_busy hb hcmd v

/-! ## IN_BUF -/

theorem State.inHostWrite_of_lt {s : State} {k : Nat} (hk : k < s.params.capIn) (hb : s.busy = false) (v : Word) :
    s.inHostWrite k v = { s with inBuf := s.inBuf.put k v } := if_pos ⟨hk, hb⟩

theorem State.inHostWrite_of_cap_le {s : State} {k : Nat} (hk : s.params.capIn ≤ k) (v : Word) :
    s.inHostWrite k v = s := if_neg fun h => Nat.not_lt.mpr hk h.1

/-- Settles O27: the store is one entry of the list, and both other conditions ignore the write. -/
theorem inBufWriteStoresItsEntry : Obligations.InBufWriteStoresItsEntry := by
  refine fun k v s => ⟨fun hk hb => ⟨{ s with inBuf := s.inBuf.put k v }, ?_, rfl, State.inEntry_put rfl rfl⟩,
    fun hignored => congrArg Host.Outcome.next ?_⟩
  · exact congrArg Host.Outcome.next (State.inHostWrite_of_lt hk hb v)
  · obtain hk | hb := hignored
    · exact State.inHostWrite_of_cap_le hk v
    · exact State.inHostWrite_of_busy hb k v

theorem State.inHostValue_of_lt {s : State} {k : Nat} (hk : k < s.params.capIn) : s.inHostValue k = s.inEntry k :=
  if_pos hk

theorem State.inHostValue_of_cap_le {s : State} {k : Nat} (hk : s.params.capIn ≤ k) : s.inHostValue k = 0#32 :=
  if_neg (Nat.not_lt.mpr hk)

/-- No engine step writes IN_BUF (R148). -/
theorem engine_keeps_inEntry {s t : State} {i : Instr} (hi : EngineStep i) (hexec : exec i s = .next t) (k : Nat) :
    t.inEntry k = s.inEntry k := by
  obtain ⟨-, -, hframe, -⟩ := engine_effect hi hexec
  exact State.inEntry_congr (congrArg State.inBuf hframe) (congrArg State.resets hframe) k

/-- Settles O28. -/
theorem inBufReadReturnsTheEntry : Obligations.InBufReadReturnsTheEntry := by
  refine fun k s => ⟨fun hk => ?_, fun hk => ?_, fun i t hi hexec => engine_keeps_inEntry hi hexec k⟩
  · rw [(readsAs_rdIn k).returns, State.inHostValue_of_lt hk]
    rfl
  · rw [(readsAs_rdIn k).returns, State.inHostValue_of_cap_le hk]
    rfl

/-! ## OUT_BUF writes and the reserved space -/

/-- Settles O30: the row's meaning is the state as it was. -/
theorem outBufWriteIsIgnored : Obligations.OutBufWriteIsIgnored := fun _ _ _ => rfl

/-- Settles O31: the read form returns 0, and the write form's meaning is the state as it was. -/
theorem reservedSpaceReadsZero : Obligations.ReservedSpaceReadsZero := fun k v s =>
  ⟨(readsAs_accReserved k v).returns s, rfl⟩

end Sys2Proof.Machine
end

section
/-! SUPPORT. The statements of 60_exceptions.md: which unit a DECODE reports (R162), how an error is entered (R161,
R163), and how long it stays (R165). -/

namespace Sys2Proof.Machine

open Sys2Proof

/-! ## Entering ERROR -/

/-- The KIND that ERR_INFO then shows is the one raised (R32, R161). -/
@[simp] theorem State.raise_errKind (s : State) (kind : ErrKind) (cp : CodeUnit) :
    (s.raise kind cp).errKind = kind.code := by
  apply BitVec.eq_of_toNat_eq
  have hcp := cp.isLt
  have hkind := kind.code.isLt
  rw [State.errKind_toNat, State.raise_errInfo, errWord_toNat]
  omega

theorem ErrKind.code_ne_zero {kind : ErrKind} (h : kind ≠ .none) : kind.code ≠ 0#2 := by
  cases kind with
  | none => exact absurd rfl h
  | empty | term | data => exact nofun

/-- A CMD write never ends in ERROR: a refusal keeps STATE, and an accepted one starts an operation (R142 to R144). -/
theorem State.cmdWrite_state_ne_error {s : State} (hs : s.state ≠ .error) (v : Word) :
    (s.cmdWrite v).state ≠ .error := by
  obtain ⟨cause, -, e⟩ | ⟨-, -, ⟨-, e⟩ | ⟨-, e⟩⟩ := s.cmdWrite_cases v <;> rw [e]
  · exact hs
  · exact nofun
  · exact nofun

/-- The one instruction that enters ERROR is an engine step that raises InvalidEncoding (R160, R161). -/
theorem exec_raises_of_enters_error {s t : State} {i : Instr} (hs : s.state ≠ .error) (hexec : exec i s = .next t)
    (ht : t.state = .error) : s.busy = true ∧ ∃ kind cp, kind ≠ .none ∧ t = s.raise kind cp := by
  obtain hlines | ⟨v, -, rfl⟩ | ⟨-, v, rfl⟩ | ⟨-, k, v, -, rfl⟩ | ⟨-, -, hb, -, ⟨hne, -⟩ | hraise⟩ :=
    exec_cases hexec
  · rw [hlines] at ht
    exact absurd ht hs
  · exact absurd ht (State.cmdWrite_state_ne_error hs v)
  · exact absurd ht hs
  · exact absurd ht hs
  · exact absurd ht hne
  · exact ⟨hb, hraise⟩

/-- Settles O56: a reset ends in IDLE and a turn without a step keeps STATE, so an engine step raised the error. -/
theorem errorEntryIsPrecise : Obligations.ErrorEntryIsPrecise := by
  intro s t hs hstep ht
  obtain ⟨-, rfl⟩ | ⟨-, -, rfl⟩ | ⟨i, hexec, -⟩ := step_cases_popped hstep
  · exact absurd ht nofun
  · exact absurd ht hs
  · obtain ⟨hb, kind, cp, hkind, rfl⟩ := exec_raises_of_enters_error (s := s.popped) hs hexec ht
    exact ⟨rfl, rfl, rfl, by rw [State.raise_errKind]; exact ErrKind.code_ne_zero hkind, hb⟩

/-! ## Leaving ERROR -/

/-- An accepted command is one of the two starts, with the event taken off (R142, R143). -/
theorem step_starts_of_commandAccepted {s t : State} (hacc : s.CommandAccepted) (hstep : step s = .next t) :
    t = s.popped.startEncode ∨ t = s.popped.startDecode := by
  obtain ⟨v, hv⟩ : ∃ v, s.CmdWriteNext v := hacc.1.elim (⟨_, ·⟩) (⟨_, ·⟩)
  obtain rfl := Host.Outcome.next.inj ((step_of_cmdWriteNext hv).symm.trans hstep)
  obtain ⟨hword, hb, hl⟩ := hv.commandAccepted_iff.mp hacc
  exact State.cmdWrite_of_accepted (s := s.popped) hword hb hl

/-- Settles O54: in ERROR no engine step is enabled, so only the host or a reset changes anything. -/
theorem errorStaysUntilCommandOrReset : Obligations.ErrorStaysUntilCommandOrReset := by
  intro s t hs hstep
  refine ⟨fun hacc hreset => ?_, fun hacc => ?_, fun hreset => ?_⟩
  · have hb : s.busy = false := State.busy_of_idle_done_error (.inr (.inr hs))
    rw [step_frame_of_not_busy hb hacc hreset hstep]
    exact ⟨hs, rfl⟩
  · obtain rfl | rfl := step_starts_of_commandAccepted hacc hstep
    · exact ⟨nofun, rfl⟩
    · exact ⟨nofun, rfl⟩
  · obtain rfl := Host.Outcome.next.inj ((step_of_resetNext hreset).symm.trans hstep)
    exact ⟨rfl, rfl⟩

/-! ## The first invalid unit -/

/-- `s` is at the start of a DECODE of `k` units and a terminator whose first invalid unit is at `j`, the engine alone
(R162, log 3). -/
structure State.DecodeFailsAt (s : State) (k j : Nat) : Prop where
  inv : s.Inv
  decTerm : s.state = .decTerm
  alone : s.inputs = []
  length : s.inLen.toNat = k + 1
  term : TermUnit (s.unitNat k)
  index : j < k
  data : ∀ x < j, DataUnit (s.unitNat x)
  invalid : ¬ DataUnit (s.unitNat j)

/-- DEC_TERM looks at the terminator alone, so it starts the run whatever stands before it (R120, R162). -/
theorem State.DecodeFailsAt.step_decTerm {s : State} {k j : Nat} (h : s.DecodeFailsAt k j) :
    ∃ u, step s = .next u ∧ s.DecodedTo k 0 u := by
  have hfits := h.inv.inLenFits (s.busy_iff.mpr (.inr (.inl h.decTerm)))
  have hlen := h.length
  have hlast : s.inLen.toNat - 1 = k := by omega
  have hterm := State.fromterm_unitAt_of_term h.term
  rw [← hlast] at hterm
  have hsel := State.selector_decTerm.mpr h.decTerm
  have henabled : s.enabledStep = some .decTerm := State.enabledStep_of_selector hsel rfl
  have hstep := step_of_enabled (.inl h.alone) henabled
  rw [State.popped_of_nil h.alone, exec,
    execDecTerm_next.mpr ⟨hsel, .inr ⟨by omega, by omega, .inr ⟨_, hterm, rfl⟩⟩⟩] at hstep
  have hresult : s.ResultInv := State.resultInv_of_ne (by simp [h.decTerm]) (by simp [h.decTerm])
  refine ⟨_, hstep, stepKeepsTheInvariant s _ h.inv hstep, stepKeepsTheResultRight s _ h.inv hresult hstep, ?_⟩
  rw [hlast]

/-- A step that places the unit at the cursor goes one unit on. -/
theorem State.DecodedTo.placed {s u v : State} {k m : Nat} (h : s.DecodedTo k m u) (hstep : Machine.step u = .next v)
    (hp : u.Placed v) : s.DecodedTo k (m + 1) v where
  inv := stepKeepsTheInvariant u v h.inv hstep
  result := stepKeepsTheResultRight u v h.inv h.result hstep
  frame := by rw [hp.frame, h.frame]

/-- Before the terminator the cursor is within the units to look at. -/
theorem State.DecodedTo.cursor_lt {s u : State} {k m : Nat} (h : s.DecodedTo k m u) (hlen : s.inLen.toNat = k + 1)
    (hm : m < k) : u.i + 1 < u.inLen.toNat := by
  rw [h.i_eq, h.inLen_eq, hlen]
  omega

/-- Each of the `j` units before the invalid one is placed (R124, R125). -/
theorem State.DecodeFailsAt.run_decodedTo {s : State} {k j m : Nat} (h : s.DecodeFailsAt k j) (hm : m ≤ j) :
    ∃ u : State, core.run (m + 1) s = .next u ∧ s.DecodedTo k m u := by
  induction m with
  | zero =>
    obtain ⟨u, hstep, hu⟩ := h.step_decTerm
    exact ⟨u, (coreRun_one (M := core) s).trans hstep, hu⟩
  | succ m ih =>
    obtain ⟨u, hrun, hu⟩ := ih (Nat.le_of_succ_le hm)
    have hin : u.inputs = [] := hu.inputs_eq.trans h.alone
    have hd : isData (u.unitAt u.i) = true := by
      rw [State.isData_unitAt_iff, hu.i_eq, hu.unitNat_eq]
      exact h.data m hm
    obtain ⟨i, v, henabled, hexec, hp⟩ :=
      hu.inv.exec_placement hu.decRun (hu.cursor_lt h.length (Nat.lt_trans hm h.index)) hd
    have hstep : step u = .next v := by
      rw [step_of_enabled (.inl hin) henabled, State.popped_of_nil hin, hexec]
    exact ⟨v, (run_snoc hrun).trans hstep, hu.placed hstep hp⟩

theorem State.DecodeFailsAt.busy_before_end {s : State} {k j m : Nat} (h : s.DecodeFailsAt k j) (hm : m ≤ j + 1) :
    ∃ u : State, core.run m s = .next u ∧ u.busy = true := by
  cases m with
  | zero => exact ⟨s, rfl, s.busy_iff.mpr (.inr (.inl h.decTerm))⟩
  | succ m =>
    obtain ⟨u, hrun, hu⟩ := h.run_decodedTo (Nat.le_of_succ_le_succ hm)
    exact ⟨u, hrun, u.busy_iff.mpr (.inr (.inr hu.decRun))⟩

/-- At the invalid unit DEC_CHAR_BAD raises the error that carries it (R123, R161). -/
theorem State.DecodedTo.step_decCharBad {s u : State} {k j : Nat} (h : s.DecodedTo k j u)
    (hfails : s.DecodeFailsAt k j) : Machine.step u = .next (u.raise .data (s.unitAt j)) := by
  have hin : u.inputs = [] := h.inputs_eq.trans hfails.alone
  have hi := h.cursor_lt hfails.length hfails.index
  have hfits := h.inv.inLenFits (u.busy_iff.mpr (.inr (.inr h.decRun)))
  have hunit : u.unitAt u.i = s.unitAt j := by
    rw [h.frame]
    rfl
  have hbad : isData (u.unitAt u.i) = false := by
    rw [hunit, State.isData_unitAt_eq_false_iff]
    exact hfails.invalid
  have hsel := State.selector_decCharBad.mpr ⟨h.decRun, hi, hbad⟩
  have henabled : u.enabledStep = some .decCharBad := State.enabledStep_of_selector hsel rfl
  rw [step_of_enabled (.inl hin) henabled, State.popped_of_nil hin, ← hunit]
  exact execDecCharBad_next.mpr ⟨hsel, by omega, rfl⟩

/-- Settles O48: DEC_TERM, a placement for each unit before the invalid one, and the error it raises. -/
theorem decodeReportsTheFirstInvalidUnit : Obligations.DecodeReportsTheFirstInvalidUnit := by
  intro s k j hinv hs hin hlen hterm hj hdata hbad
  have hfails : s.DecodeFailsAt k j := ⟨hinv, hs, hin, hlen, hterm, hj, hdata, hbad⟩
  obtain ⟨u, hrun, hu⟩ := hfails.run_decodedTo le_rfl
  refine ⟨fun m hm => hfails.busy_before_end hm, _, (run_snoc hrun).trans (hu.step_decCharBad hfails), rfl,
    s.errWord_unitAt .data j, rfl, ?_, ?_⟩
  all_goals
    rw [hu.frame]
    rfl

end Sys2Proof.Machine
end

section
/-! SUPPORT. The statement of 70_reset_and_hazards.md: what the machine holds after a reset (R180, R181). -/

namespace Sys2Proof.Machine

open Sys2Proof

/-! ## What reset leaves -/

@[simp] theorem State.afterReset_busy (s : State) : s.afterReset.busy = false :=
  State.busy_of_idle_done_error (.inl s.afterReset_state)

@[simp] theorem State.afterReset_statusWord (s : State) : s.afterReset.statusWord = 0#32 := by
  simp [State.statusWord, SeqState.code, CmdCause.code]

/-- CMD holds nothing, the other four registers are 0, and the reserved indices read 0 (R145, R180). -/
@[simp] theorem State.afterReset_regValue (s : State) (j : Nat) : s.afterReset.regValue j = 0#32 :=
  match j with
  | 0 => rfl
  | 1 => s.afterReset_statusWord
  | 2 => s.afterReset_inLen
  | 3 => s.afterReset_outLen
  | 4 => s.afterReset_errInfo
  | j + 5 => s.afterReset.regValue_of_reserved (Nat.le_add_left 5 j)

/-- Nothing is stored in IN_BUF after reset, so every entry is its free value (R60, log 11). -/
theorem State.afterReset_inEntry (s : State) (k : Nat) :
    s.afterReset.inEntry k = Config.freeIn s.afterReset.resets k := by
  rw [State.inEntry_def, State.afterReset_inBuf, Memory.find, Option.getD_none]

/-- Nothing is stored in OUT_BUF after reset, so every entry is its free value (R61, log 12). -/
theorem State.afterReset_outEntry (s : State) (k : Nat) :
    s.afterReset.outEntry k = Config.freeOut s.afterReset.outEra k := by
  rw [State.outEntry_def, State.afterReset_outBuf, Memory.find, Option.getD_none]

/-! ## The reset event -/

/-- Settles O9: the step settles in the reset of the state with the event taken off. -/
theorem resetPutsTheResetValues : Obligations.ResetPutsTheResetValues := by
  intro s rest hin
  have hinputs : s.popped.inputs = rest := congrArg List.tail hin
  have hparams : s.popped.params = s.params := rfl
  refine ⟨s.popped.afterReset, step_of_resetNext ⟨rest, hin⟩, ?_⟩
  simp [State.afterReset_inEntry, State.afterReset_outEntry, hinputs, hparams]

end Sys2Proof.Machine
end
